-- ==== Sys2Proof/Word.lean ====
section
/-! DEFINITION. The word of the machine: every register, address, memory cell and instruction has 16 bits, a console
character 8 (00_scope.md R5, R6). Arithmetic on `BitVec` wraps, as 41_operate.md R80 asks. -/

namespace Sys2Proof

/-- A register, an address, a memory cell or an instruction word: `XLEN = ALEN = 16` (00_scope.md R5). -/
abbrev Word := BitVec 16

/-- A console character: `CHAR_BITS = 8` (00_scope.md R6, 92 D3). -/
abbrev Byte := BitVec 8

end Sys2Proof
end

