-- ==== Sys2Proof/Syntax.lean ====
section
/-! DEFINITION. The instructions as terms: one constructor for each row of spec/opcode_table.json. -/

namespace Sys2Proof

/-- The eight general registers (10_state.md R10). -/
inductive Reg where
  | r0 | r1 | r2 | r3 | r4 | r5 | r6 | r7
  deriving DecidableEq, Repr

/-- The instructions of 30_encoding.md R57. A constructor's fields are the operand fields of its format (R51), as wide as
the format has them.

DESIGN CHOICE (assumption log 1, safe): the table's second names (RET of JMP R7; GETC to HALT of six TRAP words) have
constructors of their own; they run exactly as the word's first name does. -/
inductive Instr where
  | addReg (dr sr1 sr2 : Reg)
  | addImm (dr sr1 : Reg) (imm5 : BitVec 5)
  | andReg (dr sr1 sr2 : Reg)
  | andImm (dr sr1 : Reg) (imm5 : BitVec 5)
  | not (dr sr : Reg)
  | ld (dr : Reg) (off : BitVec 9)
  | ldi (dr : Reg) (off : BitVec 9)
  | ldr (dr base : Reg) (off : BitVec 6)
  | lea (dr : Reg) (off : BitVec 9)
  | st (sr : Reg) (off : BitVec 9)
  | sti (sr : Reg) (off : BitVec 9)
  | str (sr base : Reg) (off : BitVec 6)
  | br (n z p : Bool) (off : BitVec 9)
  | jsr (off : BitVec 11)
  | jsrr (base : Reg)
  | jmp (base : Reg)
  | ret
  | trap (vect : Byte)
  | getc
  | out
  | puts
  | inp
  | putsp
  | halt
  /-- The 12 bits that are "ignored" (R51) are kept: the fault record holds the raw word (46_illegal.md R140). -/
  | rti (low : BitVec 12)
  /-- As `rti`: 46_illegal.md R141. -/
  | reserved (low : BitVec 12)
  deriving DecidableEq, Repr

end Sys2Proof
end

