-- ==== Sys2Proof/WellFormed.lean ====
section
/-! DEFINITION. Which terms are the decoder's own: every operand value is legal (30_encoding.md R53, R55), so the one
check is that a word with a second name in the opcode table is written by that name (assumption log 1). -/

namespace Sys2Proof

/-- The six vectors the dispatcher recognises, `0x20` to `0x25` (45_trap.md R121). -/
def isServiceVector (v : Byte) : Bool := 0x20#8 ≤ v && v ≤ 0x25#8

/-- `JMP R7` is written `ret`, and `TRAP 0x20` to `TRAP 0x25` by their routines' names (30_encoding.md R63). -/
def Instr.wellFormed : Instr → Bool
  | .jmp base => base != .r7
  | .trap v => !isServiceVector v
  | .addReg .. | .addImm .. | .andReg .. | .andImm .. | .not .. | .ld .. | .ldi .. | .ldr .. | .lea .. | .st ..
  | .sti .. | .str .. | .br .. | .jsr .. | .jsrr .. | .ret | .getc | .out | .puts | .inp | .putsp | .halt | .rti ..
  | .reserved .. => true

end Sys2Proof
end

