-- ==== Sys2Proof/Decode.lean ====
section
/-! DEFINITION. The decoder of 30_encoding.md R56, total on 16-bit words, and the encoder from the formats of R51.

PRESUMED (assumption log 11, unsafe): the bit positions are the spec's, which it marks as general knowledge (K1, K4, K5). -/

namespace Sys2Proof

/-- The sixteen values of `ir[15:12]`, in order (30_encoding.md R57). -/
inductive Opcode where
  | br | add | ld | st | jsr | and | ldr | str | rti | not | ldi | sti | jmp | reserved | lea | trap
  deriving DecidableEq, Repr

/-- Why a word is `illegal`: the instruction of 30_encoding.md R58 whose fixed bits it violates. -/
inductive Reject where
  | addFixedBits | andFixedBits | notFixedBits | jsrrFixedBits | jmpFixedBits | trapFixedBits
  deriving DecidableEq, Repr

/-- The opcode that four bits name (30_encoding.md R57). -/
def Opcode.ofBits (b : BitVec 4) : Opcode :=
  match b.toNat with
  | 0 => .br | 1 => .add | 2 => .ld | 3 => .st | 4 => .jsr | 5 => .and | 6 => .ldr | 7 => .str
  | 8 => .rti | 9 => .not | 10 => .ldi | 11 => .sti | 12 => .jmp | 13 => .reserved | 14 => .lea | _ => .trap

/-- The four bits of an opcode (30_encoding.md R57). -/
def Opcode.bits : Opcode → BitVec 4
  | .br => 0#4 | .add => 1#4 | .ld => 2#4 | .st => 3#4 | .jsr => 4#4 | .and => 5#4 | .ldr => 6#4 | .str => 7#4
  | .rti => 8#4 | .not => 9#4 | .ldi => 10#4 | .sti => 11#4 | .jmp => 12#4 | .reserved => 13#4 | .lea => 14#4
  | .trap => 15#4

/-- A 3-bit register field by its unsigned value: `000` is R0, `111` is R7 (30_encoding.md R53). -/
def Reg.ofBits (b : BitVec 3) : Reg :=
  match b.toNat with
  | 0 => .r0 | 1 => .r1 | 2 => .r2 | 3 => .r3 | 4 => .r4 | 5 => .r5 | 6 => .r6 | _ => .r7

/-- The number of a register in three bits (30_encoding.md R53). -/
def Reg.bits : Reg → BitVec 3
  | .r0 => 0#3 | .r1 => 1#3 | .r2 => 2#3 | .r3 => 3#3 | .r4 => 4#3 | .r5 => 5#3 | .r6 => 6#3 | .r7 => 7#3

/-- `ir[15:12]` (30_encoding.md R50). -/
def opcodeOf (ir : Word) : Opcode := Opcode.ofBits (ir.extractLsb' 12 4)

/-- The register field `ir[11:9]`: DR, and SR of the stores (30_encoding.md R53). -/
def field11_9 (ir : Word) : Reg := Reg.ofBits (ir.extractLsb' 9 3)

/-- The register field `ir[8:6]`: SR1, SR of NOT, BaseR (30_encoding.md R53). -/
def field8_6 (ir : Word) : Reg := Reg.ofBits (ir.extractLsb' 6 3)

/-- The register field `ir[2:0]`: SR2 (30_encoding.md R53). -/
def field2_0 (ir : Word) : Reg := Reg.ofBits (ir.extractLsb' 0 3)

/-- The decoder as 30_encoding.md R56 writes it, knowing no second names. RTI and the reserved opcode, which R56 calls
`illegal`, are rows of the opcode table: they decode, and their meaning raises IllegalInstruction (46_illegal.md). -/
def decodeR56 (ir : Word) : Except Reject Instr :=
  match opcodeOf ir with
  | .br => .ok (.br (ir.getLsbD 11) (ir.getLsbD 10) (ir.getLsbD 9) (ir.extractLsb' 0 9))
  | .add =>
    if ir.getLsbD 5 then .ok (.addImm (field11_9 ir) (field8_6 ir) (ir.extractLsb' 0 5))
    else if ir.extractLsb' 3 2 = 0b00#2 then .ok (.addReg (field11_9 ir) (field8_6 ir) (field2_0 ir))
    else .error .addFixedBits
  | .ld => .ok (.ld (field11_9 ir) (ir.extractLsb' 0 9))
  | .st => .ok (.st (field11_9 ir) (ir.extractLsb' 0 9))
  | .jsr =>
    if ir.getLsbD 11 then .ok (.jsr (ir.extractLsb' 0 11))
    else if ir.extractLsb' 9 2 = 0b00#2 ∧ ir.extractLsb' 0 6 = 0b000000#6 then .ok (.jsrr (field8_6 ir))
    else .error .jsrrFixedBits
  | .and =>
    if ir.getLsbD 5 then .ok (.andImm (field11_9 ir) (field8_6 ir) (ir.extractLsb' 0 5))
    else if ir.extractLsb' 3 2 = 0b00#2 then .ok (.andReg (field11_9 ir) (field8_6 ir) (field2_0 ir))
    else .error .andFixedBits
  | .ldr => .ok (.ldr (field11_9 ir) (field8_6 ir) (ir.extractLsb' 0 6))
  | .str => .ok (.str (field11_9 ir) (field8_6 ir) (ir.extractLsb' 0 6))
  | .rti => .ok (.rti (ir.extractLsb' 0 12))
  | .not =>
    if ir.extractLsb' 0 6 = 0b111111#6 then .ok (.not (field11_9 ir) (field8_6 ir)) else .error .notFixedBits
  | .ldi => .ok (.ldi (field11_9 ir) (ir.extractLsb' 0 9))
  | .sti => .ok (.sti (field11_9 ir) (ir.extractLsb' 0 9))
  | .jmp =>
    if ir.extractLsb' 9 3 = 0b000#3 ∧ ir.extractLsb' 0 6 = 0b000000#6 then .ok (.jmp (field8_6 ir))
    else .error .jmpFixedBits
  | .reserved => .ok (.reserved (ir.extractLsb' 0 12))
  | .lea => .ok (.lea (field11_9 ir) (ir.extractLsb' 0 9))
  | .trap =>
    if ir.extractLsb' 8 4 = 0b0000#4 then .ok (.trap (ir.extractLsb' 0 8)) else .error .trapFixedBits

/-- The routine name of a TRAP vector that has one (45_trap.md R121). -/
def serviceName (v : Byte) : Instr :=
  if v = 0x20#8 then .getc
  else if v = 0x21#8 then .out
  else if v = 0x22#8 then .puts
  else if v = 0x23#8 then .inp
  else if v = 0x24#8 then .putsp
  else if v = 0x25#8 then .halt
  else .trap v

/-- An instruction by the name its own row of the opcode table gives it (30_encoding.md R63; assumption log 1). -/
def Instr.named : Instr → Instr
  | .jmp .r7 => .ret
  | .trap v => serviceName v
  | i => i

/-- The first name of an instruction: what 30_encoding.md R56 decodes its word to. -/
def Instr.canonical : Instr → Instr
  | .ret => .jmp .r7
  | .getc => .trap 0x20#8
  | .out => .trap 0x21#8
  | .puts => .trap 0x22#8
  | .inp => .trap 0x23#8
  | .putsp => .trap 0x24#8
  | .halt => .trap 0x25#8
  | i => i

/-- The machine's decoder: 30_encoding.md R56, the result called by its row's name. -/
def decode (ir : Word) : Except Reject Instr := (decodeR56 ir).map Instr.named

/-- The word of format TRAP with vector `v` (30_encoding.md R51). -/
def trapWord (v : Byte) : Word := Opcode.trap.bits ++ 0b0000#4 ++ v

/-- The word of an instruction, from the formats of 30_encoding.md R51. -/
def encode : Instr → Word
  | .addReg dr sr1 sr2 => Opcode.add.bits ++ dr.bits ++ sr1.bits ++ 0b000#3 ++ sr2.bits
  | .addImm dr sr1 imm5 => Opcode.add.bits ++ dr.bits ++ sr1.bits ++ 0b1#1 ++ imm5
  | .andReg dr sr1 sr2 => Opcode.and.bits ++ dr.bits ++ sr1.bits ++ 0b000#3 ++ sr2.bits
  | .andImm dr sr1 imm5 => Opcode.and.bits ++ dr.bits ++ sr1.bits ++ 0b1#1 ++ imm5
  | .not dr sr => Opcode.not.bits ++ dr.bits ++ sr.bits ++ 0b111111#6
  | .ld dr off => Opcode.ld.bits ++ dr.bits ++ off
  | .ldi dr off => Opcode.ldi.bits ++ dr.bits ++ off
  | .ldr dr base off => Opcode.ldr.bits ++ dr.bits ++ base.bits ++ off
  | .lea dr off => Opcode.lea.bits ++ dr.bits ++ off
  | .st sr off => Opcode.st.bits ++ sr.bits ++ off
  | .sti sr off => Opcode.sti.bits ++ sr.bits ++ off
  | .str sr base off => Opcode.str.bits ++ sr.bits ++ base.bits ++ off
  | .br n z p off => Opcode.br.bits ++ BitVec.ofBool n ++ BitVec.ofBool z ++ BitVec.ofBool p ++ off
  | .jsr off => Opcode.jsr.bits ++ 0b1#1 ++ off
  | .jsrr base => Opcode.jsr.bits ++ 0b000#3 ++ base.bits ++ 0b000000#6
  | .jmp base => Opcode.jmp.bits ++ 0b000#3 ++ base.bits ++ 0b000000#6
  | .ret => Opcode.jmp.bits ++ 0b000#3 ++ Reg.r7.bits ++ 0b000000#6
  | .trap v => trapWord v
  | .getc => trapWord 0x20#8
  | .out => trapWord 0x21#8
  | .puts => trapWord 0x22#8
  | .inp => trapWord 0x23#8
  | .putsp => trapWord 0x24#8
  | .halt => trapWord 0x25#8
  | .rti low => Opcode.rti.bits ++ low
  | .reserved low => Opcode.reserved.bits ++ low

/-- The word that a row of the opcode table stands for: `w` in its `nbits` low bits, the bits above them zero. -/
def tableWord (nbits w : Nat) : Word := BitVec.ofNat 16 (w % 2 ^ nbits)

/-- The instruction the machine's decoder reads from a table row's bits; none where it refuses the word. -/
def decodeTableWord (nbits w : Nat) : Option Instr := (decode (tableWord nbits w)).toOption

end Sys2Proof
end

