-- ==== Sys2Proof/Config.lean ====
section
/-! DEFINITION. What is fixed for one machine: the constants of 00_scope.md R5 and the parameters of R6. A parameter the
spec leaves open, or gives only a default of its own for, has no body: every claim holds for every value of it. -/

namespace Sys2Proof

/-- The values of the parameter `TRAP_LINK` (00_scope.md R6). -/
inductive TrapLink where
  | none | r7GetsPc
  deriving DecidableEq, Repr, Inhabited

/-- `KBSR_ADDR`, the keyboard status address (00_scope.md R5). -/
abbrev Config.kbsrAddr : Word := 0xFE00#16

/-- `KBDR_ADDR`, the keyboard data address (00_scope.md R5). -/
abbrev Config.kbdrAddr : Word := 0xFE02#16

/-- `ENTRY_PC`'s default, the value of pc at reset (00_scope.md R6, 92 D16; assumption log 7). -/
abbrev Config.entryPc : Word := 0x3000#16

/-- `TRAP_LINK`: whether TRAP writes R7 (00_scope.md R6, 92 D9).
DESIGN CHOICE (assumption log 4, safe): left free; the spec's default is `none`. -/
opaque Config.trapLink : TrapLink

/-- `KBSR_LOW`: bits 14:0 of a keyboard-status read (00_scope.md R6, 92 D7).
DESIGN CHOICE (assumption log 5, safe): left free; the spec's default is 0. -/
opaque Config.kbsrLow : BitVec 15

/-- `IN_PROMPT`: the characters IN writes before it reads; open (00_scope.md R6, 92 D12; assumption log 6, safe). -/
opaque Config.inPrompt : List Byte

/-- `HALT_NOTICE`: the characters HALT writes; open (00_scope.md R6, 92 D13; assumption log 6, safe). -/
opaque Config.haltNotice : List Byte

end Sys2Proof
end

