-- ==== Sys2Proof/Machine/State.lean ====
section
/-! DEFINITION. The whole state of the hardware (10_state.md), as plain data, and its value right after reset. -/

namespace Sys2Proof.Machine

/-- The eight general registers (10_state.md R10). -/
structure Regs where
  r0 : Word
  r1 : Word
  r2 : Word
  r3 : Word
  r4 : Word
  r5 : Word
  r6 : Word
  r7 : Word
  deriving DecidableEq, Repr

/-- The condition flags, exactly one of three (10_state.md R15). -/
inductive CC where
  | n | z | p
  deriving DecidableEq, Repr

/-- The controller state (10_state.md R20). -/
inductive Run where
  | running | halted | faulted
  deriving DecidableEq, Repr

/-- The causes of a fault, complete (60_exceptions.md R151). -/
inductive Cause where
  | illegalInstruction | illegalTrap | consoleIOFailure
  deriving DecidableEq, Repr

/-- The fault record (10_state.md R21): `word` is absent when the fetch itself failed. -/
structure FaultRecord where
  cause : Cause
  addr : Word
  word : Option Word
  deriving DecidableEq, Repr

/-- Where inside an instruction the processor waits for a character: the calls of `ConsoleRead()` of
40_fetch_execute.md R74, with what the rest of the instruction needs. -/
inductive WaitPoint where
  /-- LD, LDR, and the second read of LDI: the datum for `dr`, from address `a`. -/
  | load (dr : Reg) (a : Word)
  /-- The first read of LDI. -/
  | ldiPointer (dr : Reg) (a : Word)
  /-- The read of STI. -/
  | stiPointer (sr : Reg) (a : Word)
  /-- A cell read of PUTS: the walk stands at `a`. -/
  | puts (a : Word)
  /-- A cell read of PUTSP: the walk stands at `a`. -/
  | putsp (a : Word)
  | getc
  /-- IN, its prompt already written. -/
  | inp
  deriving DecidableEq, Repr

/-- A processor that waits (40_fetch_execute.md R74, in the "sub-step state" form; assumption log 3): in the fetch, or
inside the instruction whose word is `ir`. -/
inductive Hold where
  | fetch
  | within (ir : Word) (point : WaitPoint)
  deriving DecidableEq, Repr

/-- Memory as the cells that are not zero, the address of each strictly above the one before (see `Memory.wf`). An
unlisted cell is `0x0000`: "or `0x0000` if never written" (20_memory.md R31; assumption log 2). -/
abbrev Memory := List (Nat × Word)

/-- The state (10_state.md, opening table), with two fields of the model's own: `hold` (assumption log 3) and
`outClosed` (20_memory.md R42, 92 D19; assumption log 9). -/
structure State where
  regs : Regs
  pc : Word
  cc : CC
  run : Run
  fault : Option FaultRecord
  mem : Memory
  kbd : List Byte
  kbdClosed : Bool
  out : List Byte
  outClosed : Bool
  hold : Option Hold
  deriving DecidableEq, Repr

/-- Why no step is defined: "No step is defined when `run` is Halted or Faulted" (40_fetch_execute.md R73). A fault of
the spec is no such stop: it is a next state with `run = faulted` (60_exceptions.md R150). -/
inductive Fault where
  /-- Raised by `step` alone, from a state with `run = halted`. Safe: the spec defines no step there (assumption log 13). -/
  | haltedIsTerminal
  /-- Raised by `step` alone, from a state with `run = faulted`. Safe: as above (assumption log 13). -/
  | faultedIsTerminal
  deriving DecidableEq, Repr

/-- Why an instruction has no meaning. -/
inductive Refusal where
  /-- Raised by an arm of `exec` whose instruction is not modelled; no arm is. Safe: the machine stops. -/
  | notModelled (mnemonic : String)
  deriving DecidableEq, Repr

/-- The state after reset (10_state.md R26, 70_reset_and_hazards.md R170), with the default `ENTRY_PC` and `INIT_MEM`.
`cc = Z` is the spec's decision D8: DESIGN CHOICE (assumption log 8, unsafe). The empty, open console is the host's state at
reset: DESIGN CHOICE (assumption logs 9, 10, unsafe). -/
def State.reset : State where
  regs := ⟨0, 0, 0, 0, 0, 0, 0, 0⟩
  pc := Config.entryPc
  cc := .z
  run := .running
  fault := none
  mem := []
  kbd := []
  kbdClosed := false
  out := []
  outClosed := false
  hold := none

end Sys2Proof.Machine
end

