-- ==== Sys2Proof/Machine/Flags.lean ====
section
/-! DEFINITION. The condition flags: what writes them and what the branch asks of them (10_state.md R15 to R17). -/

namespace Sys2Proof.Machine

/-- The flag that `setcc(v)` gives: N if bit 15 is 1, else Z if `v` is zero, else P (10_state.md R17). -/
def ccOf (v : Word) : CC := if v.getLsbD 15 then .n else if v = 0x0000#16 then .z else .p

/-- The 3-bit one-hot vector of the flags (10_state.md R15, K2). -/
def CC.bits : CC → BitVec 3
  | .n => 0b100#3
  | .z => 0b010#3
  | .p => 0b001#3

/-- `setcc(v)` (10_state.md R17). -/
def State.setcc (s : State) (v : Word) : State := { s with cc := ccOf v }

/-- BR's condition: the named flags include the current one (44_control.md R110). -/
def taken (n z p : Bool) (cc : CC) : Bool :=
  (n && cc == .n) || (z && cc == .z) || (p && cc == .p)

end Sys2Proof.Machine
end

