-- ==== Sys2Proof/Machine/Operands.lean ====
section
/-! DEFINITION. Operand forms: extension, bytes of a word, and the four addressing modes (30_encoding.md R54, R55;
20_memory.md R47). In an instruction `s.pc` is the incremented program counter (40_fetch_execute.md R72). -/

namespace Sys2Proof.Machine

/-- `sext_N(v)` (30_encoding.md R54). -/
def sext {n : Nat} (v : BitVec n) : Word := v.signExtend 16

/-- `zext_16(c)` (00_scope.md R27). -/
def zext16 (c : Byte) : Word := c.setWidth 16

/-- `v[7:0]`. -/
def lowByte (v : Word) : Byte := v.extractLsb' 0 8

/-- `v[15:8]`. -/
def highByte (v : Word) : Byte := v.extractLsb' 8 8

/-- `x[r]` of a register file (10_state.md R11). -/
def Regs.get (rf : Regs) : Reg → Word
  | .r0 => rf.r0 | .r1 => rf.r1 | .r2 => rf.r2 | .r3 => rf.r3
  | .r4 => rf.r4 | .r5 => rf.r5 | .r6 => rf.r6 | .r7 => rf.r7

/-- `x[r] <- v` on a register file: all 16 bits, and no register is hard-wired (10_state.md R10, R11). -/
def Regs.set (rf : Regs) (r : Reg) (v : Word) : Regs :=
  match r with
  | .r0 => { rf with r0 := v } | .r1 => { rf with r1 := v } | .r2 => { rf with r2 := v } | .r3 => { rf with r3 := v }
  | .r4 => { rf with r4 := v } | .r5 => { rf with r5 := v } | .r6 => { rf with r6 := v } | .r7 => { rf with r7 := v }

/-- `x[r]` (00_scope.md R27). -/
def State.reg (s : State) (r : Reg) : Word := s.regs.get r

/-- `x[r] <- v` (00_scope.md R27). -/
def State.setReg (s : State) (r : Reg) (v : Word) : State := { s with regs := s.regs.set r v }

/-- `pc <- target` (00_scope.md R27). -/
def State.setPc (s : State) (target : Word) : State := { s with pc := target }

/-- PC-relative with a 9- or 11-bit offset: `pc + sext(offset)` (20_memory.md R47). -/
def pcRelative {n : Nat} (off : BitVec n) (s : State) : Word := s.pc + sext off

/-- Base plus 6-bit offset: `x[BaseR] + sext_6(offset6)`; the base is not modified (20_memory.md R47). -/
def basePlus (base : Reg) (off : BitVec 6) (s : State) : Word := s.reg base + sext off

/-- `ia` while an instruction runs: the address it was fetched from (00_scope.md R27, 40_fetch_execute.md R72). -/
def State.ia (s : State) : Word := s.pc - 1#16

end Sys2Proof.Machine
end

