-- ==== Sys2Proof/Machine/Ops.lean ====
section
/-! DEFINITION. The shared operations: cells of memory, the console primitives, the device decoder, taking a fault, waiting
for a character, and the pieces instructions are made of (20_memory.md; 60_exceptions.md R150; 40_fetch_execute.md R74). -/

namespace Sys2Proof.Machine

/-! ### Cells -/

/-- The cell at address `a`; an unlisted one is zero (20_memory.md R31). -/
def Memory.read : Memory → Nat → Word
  | [], _ => 0x0000#16
  | (b, v) :: rest, a => if b = a then v else Memory.read rest a

/-- Replace the cell at `a`, keeping the list sorted and free of zero cells (20_memory.md R35). -/
def Memory.write : Memory → Nat → Word → Memory
  | [], a, v => if v = 0x0000#16 then [] else [(a, v)]
  | (b, w) :: rest, a, v =>
    if a < b then if v = 0x0000#16 then (b, w) :: rest else (a, v) :: (b, w) :: rest
    else if a = b then if v = 0x0000#16 then rest else (a, v) :: rest
    else (b, w) :: Memory.write rest a v

/-- The canonical form of cells at addresses `lo` and above. -/
def Memory.wfFrom (lo : Nat) : Memory → Bool
  | [] => true
  | (a, v) :: rest => decide (lo ≤ a) && decide (a < 65536) && v != 0x0000#16 && Memory.wfFrom (a + 1) rest

/-- The canonical form: addresses strictly rising and below 65,536 (20_memory.md R30), no cell listed as zero. -/
def Memory.wf (m : Memory) : Bool := Memory.wfFrom 0 m

/-- The cell stored at a 16-bit address, the backing cells of the mapped addresses included (10_state.md R24). -/
def State.cell (s : State) (a : Word) : Word := s.mem.read a.toNat

/-- `MemWrite(a, 1, v)`: the cell, and nothing else, at any address (20_memory.md R35). -/
def State.memWrite (s : State) (a v : Word) : State := { s with mem := s.mem.write a.toNat v }

/-! ### Console primitives -/

/-- How a read that may need the keyboard ends: with a value; waiting, because the keyboard is empty; or failing, because
it is empty and closed (20_memory.md R41). -/
inductive ReadResult (α : Type) where
  | done (v : α) (s : State)
  | wait
  | fail
  deriving Repr

/-- The keyboard queue replaced by what is left of it. -/
def State.setKbd (s : State) (left : List Byte) : State := { s with kbd := left }

/-- Characters appended to `out`, in the order written (20_memory.md R42). -/
def State.wrote (s : State) (cs : List Byte) : State := { s with out := s.out ++ cs }

/-- `ConsolePoll()`: non-empty, closed or not, and no state change (20_memory.md R40). -/
def consolePoll (s : State) : Bool := !s.kbd.isEmpty

/-- `ConsoleRead()` (20_memory.md R41). -/
def consoleRead (s : State) : ReadResult Byte :=
  match s.kbd with
  | c :: rest => .done c (s.setKbd rest)
  | [] => if s.kbdClosed then .fail else .wait

/-- `ConsoleWrite(c)`: append to `out`; none on a closed display (20_memory.md R42, 92 D19; assumption log 9). -/
def consoleWrite (c : Byte) (s : State) : Option State :=
  if s.outClosed then none else some (s.wrote [c])

/-- `ConsoleWrite` of each character in order; nothing to write is no failure (45_trap.md R125, R127). -/
def consoleWriteAll (cs : List Byte) (s : State) : Option State :=
  if s.outClosed && !cs.isEmpty then none else some (s.wrote cs)

/-! ### The device decoder -/

/-- A keyboard-status value: bit 15 is `ready`, bits 14:0 are `low` (10_state.md R19). -/
def kbsrValue (low : BitVec 15) (ready : Bool) : Word := BitVec.ofBool ready ++ low

/-- `MemRead(a, 1)`, the one path of every read (20_memory.md R34, 92 D11). -/
def memRead (a : Word) (s : State) : ReadResult Word :=
  if a = Config.kbsrAddr then .done (kbsrValue Config.kbsrLow (consolePoll s)) s
  else if a = Config.kbdrAddr then
    match consoleRead s with
    | .done c t => .done (zext16 c) t
    | .wait => .wait
    | .fail => .fail
  else .done (s.cell a) s

/-! ### Taking a fault, halting, waiting -/

/-- `raise cause(addr, word)`: `run` and the record, and nothing else (60_exceptions.md R150). There is no return from it
(R161: RTI faults, and Faulted is terminal). -/
def State.raise (s : State) (cause : Cause) (addr : Word) (word : Option Word) : State :=
  { s with run := .faulted, fault := some ⟨cause, addr, word⟩ }

/-- `raise cause(ia, ir)` inside the instruction whose word is `ir` (60_exceptions.md R151). -/
def State.raiseAt (s : State) (cause : Cause) (ir : Word) : State := s.raise cause s.ia (some ir)

/-- `halt` (00_scope.md R27). -/
def State.halt (s : State) : State := { s with run := .halted }

/-- Wait for a character inside the instruction whose word is `ir`; what it did so far stays done
(40_fetch_execute.md R74). -/
def State.waitAt (s : State) (ir : Word) (point : WaitPoint) : State := { s with hold := some (.within ir point) }

/-- Go on with the value of a read made in state `s`, or wait at `point`, or take the console failure. -/
def ReadResult.andThen {α : Type} (r : ReadResult α) (s : State) (ir : Word) (point : WaitPoint)
    (go : α → State → State) : State :=
  match r with
  | .done v t => go v t
  | .wait => s.waitAt ir point
  | .fail => s.raiseAt .consoleIOFailure ir

/-- Go on after a write made in state `s`, or take the console failure. -/
def andThenWritten (r : Option State) (s : State) (ir : Word) (go : State → State) : State :=
  match r with
  | some t => go t
  | none => s.raiseAt .consoleIOFailure ir

/-! ### Pieces of instructions -/

/-- `x[dr] <- v; setcc(v)`: the end of the seven instructions that define the flags (10_state.md R16). -/
def State.define (s : State) (dr : Reg) (v : Word) : State := (s.setReg dr v).setcc v

/-- `v <- MemRead(a, 1); x[dr] <- v; setcc(v)` (42_load.md). -/
def loadInto (ir : Word) (dr : Reg) (a : Word) (s : State) : State :=
  (memRead a s).andThen s ir (.load dr a) fun v t => t.define dr v

/-- The pointer read of LDI and what follows it (42_load.md R91). -/
def loadIndirect (ir : Word) (dr : Reg) (a : Word) (s : State) : State :=
  (memRead a s).andThen s ir (.ldiPointer dr a) fun pointer t => loadInto ir dr pointer t

/-- The pointer read of STI and the store (43_store.md R101). -/
def storeIndirect (ir : Word) (sr : Reg) (a : Word) (s : State) : State :=
  (memRead a s).andThen s ir (.stiPointer sr a) fun pointer t => t.memWrite pointer (t.reg sr)

/-- `x[7] <- pc`, the link of JSR and JSRR (44_control.md R111, R112). -/
def State.link (s : State) : State := s.setReg .r7 s.pc

end Sys2Proof.Machine
end

