-- ==== Sys2Proof/Machine/Control.lean ====
section
/-! DEFINITION. BR, JSR, JSRR, JMP, RET (44_control.md). -/

namespace Sys2Proof.Machine

/-- BR (44_control.md R110). -/
def execBr (n z p : Bool) (off : BitVec 9) (s : State) : Host.Outcome State Fault Refusal :=
  .next (if taken n z p s.cc then s.setPc (pcRelative off s) else s)

/-- JSR (44_control.md R111). -/
def execJsr (off : BitVec 11) (s : State) : Host.Outcome State Fault Refusal :=
  .next (s.link.setPc (pcRelative off s))

/-- JSRR: R7 first, then the base, so that `JSRR R7` falls through (44_control.md R112, 92 D17; DESIGN CHOICE of the spec,
assumption log 15, unsafe). -/
def execJsrr (base : Reg) (s : State) : Host.Outcome State Fault Refusal :=
  .next (s.link.setPc (s.link.reg base))

/-- JMP (44_control.md R113). -/
def execJmp (base : Reg) (s : State) : Host.Outcome State Fault Refusal :=
  .next (s.setPc (s.reg base))

/-- RET, the second name of `JMP R7` (44_control.md R114). -/
def execRet (s : State) : Host.Outcome State Fault Refusal :=
  .next (s.setPc (s.reg .r7))

end Sys2Proof.Machine
end

