-- ==== Sys2Proof/Machine/Illegal.lean ====
section
/-! DEFINITION. The two opcodes that always fault (46_illegal.md): each takes IllegalInstruction, a next state. -/

namespace Sys2Proof.Machine

/-- RTI (46_illegal.md R140). -/
def execRti (low : BitVec 12) (s : State) : Host.Outcome State Fault Refusal :=
  .next (s.raiseAt .illegalInstruction (encode (.rti low)))

/-- The reserved opcode `1101` (46_illegal.md R141). -/
def execReserved (low : BitVec 12) (s : State) : Host.Outcome State Fault Refusal :=
  .next (s.raiseAt .illegalInstruction (encode (.reserved low)))

end Sys2Proof.Machine
end

