-- ==== Sys2Proof/Machine/Load.lean ====
section
/-! DEFINITION. LD, LDI, LDR, LEA (42_load.md). A read at the keyboard-data address may wait or fail (20_memory.md R41). -/

namespace Sys2Proof.Machine

/-- LD (42_load.md R90). -/
def execLd (dr : Reg) (off : BitVec 9) (s : State) : Host.Outcome State Fault Refusal :=
  .next (loadInto (encode (.ld dr off)) dr (pcRelative off s) s)

/-- LDI (42_load.md R91). -/
def execLdi (dr : Reg) (off : BitVec 9) (s : State) : Host.Outcome State Fault Refusal :=
  .next (loadIndirect (encode (.ldi dr off)) dr (pcRelative off s) s)

/-- LDR (42_load.md R92). -/
def execLdr (dr base : Reg) (off : BitVec 6) (s : State) : Host.Outcome State Fault Refusal :=
  .next (loadInto (encode (.ldr dr base off)) dr (basePlus base off s) s)

/-- LEA: it writes the flags and reads no memory (42_load.md R93). -/
def execLea (dr : Reg) (off : BitVec 9) (s : State) : Host.Outcome State Fault Refusal :=
  .next (s.define dr (pcRelative off s))

end Sys2Proof.Machine
end

