-- ==== Sys2Proof/Machine/Operate.lean ====
section
/-! DEFINITION. ADD, AND, NOT (41_operate.md). The state given is the one after the fetch and the pc increment. -/

namespace Sys2Proof.Machine

/-- ADD, register form (41_operate.md R81). -/
def execAddReg (dr sr1 sr2 : Reg) (s : State) : Host.Outcome State Fault Refusal :=
  .next (s.define dr (s.reg sr1 + s.reg sr2))

/-- ADD, immediate form (41_operate.md R82). -/
def execAddImm (dr sr1 : Reg) (imm5 : BitVec 5) (s : State) : Host.Outcome State Fault Refusal :=
  .next (s.define dr (s.reg sr1 + sext imm5))

/-- AND, register form (41_operate.md R83). -/
def execAndReg (dr sr1 sr2 : Reg) (s : State) : Host.Outcome State Fault Refusal :=
  .next (s.define dr (s.reg sr1 &&& s.reg sr2))

/-- AND, immediate form (41_operate.md R84). -/
def execAndImm (dr sr1 : Reg) (imm5 : BitVec 5) (s : State) : Host.Outcome State Fault Refusal :=
  .next (s.define dr (s.reg sr1 &&& sext imm5))

/-- NOT (41_operate.md R85). -/
def execNot (dr sr : Reg) (s : State) : Host.Outcome State Fault Refusal :=
  .next (s.define dr (~~~s.reg sr))

end Sys2Proof.Machine
end

