-- ==== Sys2Proof/Machine/Store.lean ====
section
/-! DEFINITION. ST, STI, STR (43_store.md). -/

namespace Sys2Proof.Machine

/-- ST (43_store.md R100). -/
def execSt (sr : Reg) (off : BitVec 9) (s : State) : Host.Outcome State Fault Refusal :=
  .next (s.memWrite (pcRelative off s) (s.reg sr))

/-- STI (43_store.md R101). -/
def execSti (sr : Reg) (off : BitVec 9) (s : State) : Host.Outcome State Fault Refusal :=
  .next (storeIndirect (encode (.sti sr off)) sr (pcRelative off s) s)

/-- STR (43_store.md R102). -/
def execStr (sr base : Reg) (off : BitVec 6) (s : State) : Host.Outcome State Fault Refusal :=
  .next (s.memWrite (basePlus base off s) (s.reg sr))

end Sys2Proof.Machine
end

