-- ==== Sys2Proof/Machine/Trap.lean ====
section
/-! DEFINITION. TRAP, its dispatcher and the six native routines (45_trap.md). `ir` is the word of the TRAP. -/

namespace Sys2Proof.Machine

/-! ### The routines -/

/-- GETC from its keyboard read on (45_trap.md R122). -/
def getcRoutine (ir : Word) (s : State) : State :=
  (consoleRead s).andThen s ir .getc fun c t => t.setReg .r0 (zext16 c)

/-- OUT (45_trap.md R123). -/
def outRoutine (ir : Word) (s : State) : State :=
  andThenWritten (consoleWrite (lowByte (s.reg .r0)) s) s ir id

/-- PUTS from cell `a` on, for at most `n` cells (45_trap.md R124). Past `n` cells the walk would go on in the next step,
from where it stands; `putsBound` is large enough that this does not happen (assumption log 18). -/
def putsWalk (ir : Word) : Nat → Word → State → State
  | 0, a, s => s.waitAt ir (.puts a)
  | n + 1, a, s =>
    (memRead a s).andThen s ir (.puts a) fun w t =>
      if w = 0x0000#16 then t
      else andThenWritten (consoleWrite (lowByte w) t) t ir fun u => putsWalk ir n (a + 1#16) u

/-- One lap of the address space for every character that can be taken, and one more: each lap passes `0xFE02` once. -/
def putsBound (s : State) : Nat := (s.kbd.length + 1) * 65536

/-- PUTS from cell `a` on, to its end (45_trap.md R124). -/
def putsFrom (ir a : Word) (s : State) : State := putsWalk ir (putsBound s) a s

/-- PUTS; R0 keeps the start address (45_trap.md R124). -/
def putsRoutine (ir : Word) (s : State) : State := putsFrom ir (s.reg .r0) s

/-- IN from its keyboard read on: the echo, then R0 (45_trap.md R125). -/
def inpRead (ir : Word) (s : State) : State :=
  (consoleRead s).andThen s ir .inp fun c t =>
    andThenWritten (consoleWrite c t) t ir fun u => u.setReg .r0 (zext16 c)

/-- IN (45_trap.md R125). -/
def inpRoutine (ir : Word) (s : State) : State :=
  andThenWritten (consoleWriteAll Config.inPrompt s) s ir fun t => inpRead ir t

/-- PUTSP from cell `a` on, for at most `n` cells: the low byte, then the high byte, ending at a zero in either
(45_trap.md R126). -/
def putspWalk (ir : Word) : Nat → Word → State → State
  | 0, a, s => s.waitAt ir (.putsp a)
  | n + 1, a, s =>
    (memRead a s).andThen s ir (.putsp a) fun w t =>
      if lowByte w = 0x00#8 then t
      else andThenWritten (consoleWrite (lowByte w) t) t ir fun u =>
        if highByte w = 0x00#8 then u
        else andThenWritten (consoleWrite (highByte w) u) u ir fun v => putspWalk ir n (a + 1#16) v

/-- One lap: a character read at `0xFE02` has a zero high byte and ends the walk (assumption log 18). -/
def putspBound : Nat := 65536

/-- PUTSP from cell `a` on, to its end (45_trap.md R126). -/
def putspFrom (ir a : Word) (s : State) : State := putspWalk ir putspBound a s

/-- PUTSP; R0 keeps the start address (45_trap.md R126). -/
def putspRoutine (ir : Word) (s : State) : State := putspFrom ir (s.reg .r0) s

/-- HALT (45_trap.md R127). -/
def haltRoutine (ir : Word) (s : State) : State :=
  andThenWritten (consoleWriteAll Config.haltNotice s) s ir State.halt

/-! ### The dispatcher -/

/-- What R7 holds after the optional link of TRAP (45_trap.md R120). -/
def trapLinkValue (mode : TrapLink) (pc r7 : Word) : Word :=
  match mode with
  | .none => r7
  | .r7GetsPc => pc

/-- `if TRAP_LINK = r7_gets_pc then x[7] <- pc` (45_trap.md R120; assumption log 4). -/
def State.trapLinked (s : State) : State := s.setReg .r7 (trapLinkValue Config.trapLink s.pc (s.reg .r7))

/-- The dispatch on the vector: six routines, and IllegalTrap for every other (45_trap.md R120, R121, R128). -/
def trapDispatch (vect : Byte) (ir : Word) (s : State) : State :=
  if vect = 0x20#8 then getcRoutine ir s
  else if vect = 0x21#8 then outRoutine ir s
  else if vect = 0x22#8 then putsRoutine ir s
  else if vect = 0x23#8 then inpRoutine ir s
  else if vect = 0x24#8 then putspRoutine ir s
  else if vect = 0x25#8 then haltRoutine ir s
  else s.raiseAt .illegalTrap ir

/-! ### The meanings -/

/-- TRAP (45_trap.md R120). -/
def execTrap (vect : Byte) (s : State) : Host.Outcome State Fault Refusal :=
  .next (trapDispatch vect (encode (.trap vect)) s.trapLinked)

/-- GETC, `TRAP x20` (45_trap.md R122). -/
def execGetc (s : State) : Host.Outcome State Fault Refusal :=
  .next (getcRoutine (encode .getc) s.trapLinked)

/-- OUT, `TRAP x21` (45_trap.md R123). -/
def execOut (s : State) : Host.Outcome State Fault Refusal :=
  .next (outRoutine (encode .out) s.trapLinked)

/-- PUTS, `TRAP x22` (45_trap.md R124). -/
def execPuts (s : State) : Host.Outcome State Fault Refusal :=
  .next (putsRoutine (encode .puts) s.trapLinked)

/-- IN, `TRAP x23` (45_trap.md R125). -/
def execInp (s : State) : Host.Outcome State Fault Refusal :=
  .next (inpRoutine (encode .inp) s.trapLinked)

/-- PUTSP, `TRAP x24` (45_trap.md R126). -/
def execPutsp (s : State) : Host.Outcome State Fault Refusal :=
  .next (putspRoutine (encode .putsp) s.trapLinked)

/-- HALT, `TRAP x25` (45_trap.md R127). -/
def execHalt (s : State) : Host.Outcome State Fault Refusal :=
  .next (haltRoutine (encode .halt) s.trapLinked)

end Sys2Proof.Machine
end

