-- ==== Sys2Proof/Machine/Fetch.lean ====
section
/-! DEFINITION. Fetching a word, going on after a wait, and placing a word where the next step fetches it
(40_fetch_execute.md R70, R71, R74). -/

namespace Sys2Proof.Machine

/-- `ia <- pc; ir <- MemRead(ia, 1); pc <- ia + 1` (40_fetch_execute.md R70): a word and the state after it, or a wait, or a
failure, for the fetch from `0xFE02` (R71). -/
def fetch (s : State) : ReadResult Word :=
  match memRead s.pc s with
  | .done ir t => .done ir (t.setPc (s.pc + 1#16))
  | .wait => .wait
  | .fail => .fail

/-- Wait in the fetch: nothing has happened yet, and pc still names the keyboard-data address (40_fetch_execute.md R70;
95_test_vectors.md section 2.8: "`pc` still `FE02` until a character arrives"). -/
def State.waitInFetch (s : State) : State := { s with hold := some .fetch }

/-- The fetch met a closed keyboard: the record holds the address and no word (60_exceptions.md R151), and pc is
incremented, as in every Faulted state (40_fetch_execute.md R72 (d), 92 D15). DEDUCED that this holds although R70 writes the
increment after the read (assumption log 14, unsafe). -/
def State.failInFetch (s : State) : State := (s.setPc (s.pc + 1#16)).raise .consoleIOFailure s.pc none

/-- The word just fetched is no instruction (46_illegal.md R142). -/
def State.raiseIllegal (s : State) (ir : Word) : State := s.raiseAt .illegalInstruction ir

/-- Go on inside the instruction whose word is `ir`, from where it waits (40_fetch_execute.md R74): a keyboard still empty
leaves the processor waiting there. -/
def resume (ir : Word) (point : WaitPoint) (s : State) : State :=
  match point with
  | .load dr a => loadInto ir dr a s
  | .ldiPointer dr a => loadIndirect ir dr a s
  | .stiPointer sr a => storeIndirect ir sr a s
  | .puts a => putsFrom ir a s
  | .putsp a => putspFrom ir a s
  | .getc => getcRoutine ir s
  | .inp => inpRead ir s

/-- The wait is over, or tried again. -/
def State.unhold (s : State) : State := { s with hold := none }

/-- Whether a fetch at `a` reads a cell that can be written: not one of the two mapped addresses (20_memory.md R33). -/
def isPlain (a : Word) : Bool := a != Config.kbsrAddr && a != Config.kbdrAddr

/-- A state ready to fetch from a plain cell: running, no wait, no fault record, and a pc that names a plain cell (the
default `ENTRY_PC` if it did not). -/
def State.readyToFetch (s : State) : State :=
  { s with run := .running, fault := none, hold := none, pc := if isPlain s.pc then s.pc else Config.entryPc }

/-- The word `ir` stands where the next step fetches. -/
def State.withWord (s : State) (ir : Word) : State := s.readyToFetch.memWrite s.readyToFetch.pc ir

end Sys2Proof.Machine
end

