-- ==== Sys2Proof/Machine/Step.lean ====
section
/-! DEFINITION. One step of the controller (40_fetch_execute.md R70 to R75). -/

namespace Sys2Proof.Machine

/-- Fetch, increment, decode, execute (40_fetch_execute.md R70). -/
def fetchExecute (s : State) : Host.Outcome State Fault Refusal :=
  match fetch s with
  | .done ir t =>
    match decode ir with
    | .ok i => exec i t
    | .error _ => .next (t.raiseIllegal ir)
  | .wait => .next s.waitInFetch
  | .fail => .next s.failInFetch

/-- One step: of a running processor, a whole instruction, or the rest of one that waits for a character; none is defined
from Halted or Faulted (40_fetch_execute.md R73; assumption log 13). -/
def step (s : State) : Host.Outcome State Fault Refusal :=
  match s.run with
  | .halted => .fault .haltedIsTerminal
  | .faulted => .fault .faultedIsTerminal
  | .running =>
    match s.hold with
    | none => fetchExecute s
    | some .fetch => fetchExecute s.unhold
    | some (.within ir point) => .next (resume ir point s.unhold)

/-- `s` with a table row's word stored where `step` fetches next (assumption log 7). -/
def State.withFetchWord (s : State) (nbits w : Nat) : State := s.withWord (tableWord nbits w)

end Sys2Proof.Machine
end

