-- ==== Sys2Proof/Machine/Console.lean ====
section
/-! DEFINITION. The host's moves on the console (00_scope.md R8), made between steps (assumption log 19).

DESIGN CHOICE (assumption log 26, safe): a move may also be made in a Halted or Faulted state, and changes the console fields
there. R8 lets the host append "at any time"; 40_fetch_execute.md R73 says that all state then keeps its value. -/

namespace Sys2Proof.Machine

/-- A character arrives behind those waiting; after the input closed nothing more is appended (00_scope.md R8, 92 D2).
In a terminal state too: DESIGN CHOICE (assumption log 26, safe). -/
def State.typeChar (s : State) (c : Byte) : State := if s.kbdClosed then s else { s with kbd := s.kbd ++ [c] }

/-- The host closes the input, once (00_scope.md R8). In a terminal state too: DESIGN CHOICE (assumption log 26, safe). -/
def State.closeKeyboard (s : State) : State := { s with kbdClosed := true }

/-- The host closes the display (92 D19; assumption log 9). In a terminal state too: DESIGN CHOICE (assumption log 26,
safe). -/
def State.closeDisplay (s : State) : State := { s with outClosed := true }

end Sys2Proof.Machine
end

