-- ==== Sys2Proof/Machine/Loader.lean ====
section
/-! DEFINITION. What stands in the machine before its first step: the loader's writes and the entry address
(70_reset_and_hazards.md R170, R171), and the image file's words (20_memory.md R37). -/

namespace Sys2Proof.Machine

/-- The writes of the loader, in order: a later one to the same address wins (70_reset_and_hazards.md R171). -/
def State.loaded (s : State) (writes : List (Word × Word)) : State :=
  writes.foldl (fun t aw => t.memWrite aw.1 aw.2) s

/-- Reset with the parameters `ENTRY_PC` and `INIT_MEM`, the latter as the loader's writes (70_reset_and_hazards.md R170). -/
def State.resetWith (entry : Word) (writes : List (Word × Word)) : State :=
  State.loaded { State.reset with pc := entry } writes

/-- The big-endian words of a file; none if a byte is left over (20_memory.md R37; assumption log 25). -/
def imageWords : List Byte → Option (List Word)
  | [] => some []
  | [_] => none
  | hi :: lo :: rest => (imageWords rest).map fun ws => (hi ++ lo) :: ws

/-- Words at consecutive addresses from `a`, wrapping (20_memory.md R30, R37). -/
def placeFrom (a : Word) : List Word → List (Word × Word)
  | [] => []
  | w :: ws => (a, w) :: placeFrom (a + 1#16) ws

/-- The writes of one image: its first word is the origin (20_memory.md R37). A file without one never reaches the core. -/
def imageWrites (bytes : List Byte) : Option (List (Word × Word)) :=
  match imageWords bytes with
  | some (origin :: ws) => some (placeFrom origin ws)
  | some [] => none
  | none => none

end Sys2Proof.Machine
end

