-- ==== Sys2Proof/Safety.lean ====
section
/-! DEFINITION. The terms claims are stated in: what a read gives, what an instruction may write, which states are sound,
and what two states share. -/

namespace Sys2Proof.Machine

/-! ### Reads, from 20_memory.md R34 and R41 -/

/-- A read at `a` completes: it is not at the keyboard-data address, or a character is there. -/
def ReadReady (a : Word) (s : State) : Prop := a = Config.kbdrAddr → s.kbd ≠ []

/-- What a read at `a` that completes gives. -/
def readValue (a : Word) (s : State) : Word :=
  if a = Config.kbsrAddr then kbsrValue Config.kbsrLow (consolePoll s)
  else if a = Config.kbdrAddr then zext16 (s.kbd.headD 0x00#8)
  else s.cell a

/-- The keyboard queue after a read at `a` that completes. -/
def kbdAfterRead (a : Word) (s : State) : List Byte := if a = Config.kbdrAddr then s.kbd.tail else s.kbd

/-- The state after a read at `a` that completes. -/
def afterRead (a : Word) (s : State) : State := s.setKbd (kbdAfterRead a s)

end Sys2Proof.Machine

namespace Sys2Proof

open Machine

/-! ### What instructions may write -/

/-- The seven instructions that define the flags (10_state.md R16). -/
def Instr.definesFlags : Instr → Bool
  | .addReg .. | .addImm .. | .andReg .. | .andImm .. | .not .. | .ld .. | .ldi .. | .ldr .. | .lea .. => true
  | .st .. | .sti .. | .str .. | .br .. | .jsr .. | .jsrr .. | .jmp .. | .ret | .trap .. | .getc | .out | .puts
  | .inp | .putsp | .halt | .rti .. | .reserved .. => false

/-- TRAP under any of its names (45_trap.md R120). -/
def Instr.isTrap : Instr → Bool
  | .trap .. | .getc | .out | .puts | .inp | .putsp | .halt => true
  | .addReg .. | .addImm .. | .andReg .. | .andImm .. | .not .. | .ld .. | .ldi .. | .ldr .. | .lea .. | .st ..
  | .sti .. | .str .. | .br .. | .jsr .. | .jsrr .. | .jmp .. | .ret | .rti .. | .reserved .. => false

/-- The instructions that may change pc beyond its increment (10_state.md R13). -/
def Instr.isTransfer : Instr → Bool
  | .br .. | .jsr .. | .jsrr .. | .jmp .. | .ret => true
  | .addReg .. | .addImm .. | .andReg .. | .andImm .. | .not .. | .ld .. | .ldi .. | .ldr .. | .lea .. | .st ..
  | .sti .. | .str .. | .trap .. | .getc | .out | .puts | .inp | .putsp | .halt | .rti .. | .reserved .. => false

/-- PUTS or PUTSP under any of their names: the routines that walk memory (45_trap.md R124, R126). -/
def Instr.walks : Instr → Bool
  | .puts | .putsp => true
  | .trap v => v == 0x22#8 || v == 0x24#8
  | .addReg .. | .addImm .. | .andReg .. | .andImm .. | .not .. | .ld .. | .ldi .. | .ldr .. | .lea .. | .st ..
  | .sti .. | .str .. | .br .. | .jsr .. | .jsrr .. | .jmp .. | .ret | .getc | .out | .inp | .halt | .rti ..
  | .reserved .. => false

/-- The registers an instruction writes by the spec (10_state.md R11): its destination, R7 of a call, R0 of GETC and IN.
R7 of TRAP, which only `TRAP_LINK` may write, stands here too. -/
def Instr.dests : Instr → List Reg
  | .addReg dr _ _ | .addImm dr _ _ | .andReg dr _ _ | .andImm dr _ _ | .not dr _ => [dr]
  | .ld dr _ | .ldi dr _ | .ldr dr _ _ | .lea dr _ => [dr]
  | .jsr _ | .jsrr _ => [.r7]
  | .getc | .inp => [.r0, .r7]
  | .trap v => if v = 0x20#8 ∨ v = 0x23#8 then [.r0, .r7] else [.r7]
  | .out | .puts | .putsp | .halt => [.r7]
  | .st .. | .sti .. | .str .. | .br .. | .jmp .. | .ret | .rti .. | .reserved .. => []

/-- The address an instruction stores to in state `s`, if it stores (20_memory.md R39): what STI's pointer read gives. -/
def Instr.storeAddress (i : Instr) (s : State) : Option Word :=
  match i with
  | .st _ off => some (pcRelative off s)
  | .str _ base off => some (basePlus base off s)
  | .sti _ off =>
    match memRead (pcRelative off s) s with
    | .done pointer _ => some pointer
    | .wait => none
    | .fail => none
  | .addReg .. | .addImm .. | .andReg .. | .andImm .. | .not .. | .ld .. | .ldi .. | .ldr .. | .lea .. | .br ..
  | .jsr .. | .jsrr .. | .jmp .. | .ret | .trap .. | .getc | .out | .puts | .inp | .putsp | .halt | .rti ..
  | .reserved .. => none

end Sys2Proof

namespace Sys2Proof.Machine

/-! ### What two states share -/

/-- Every register but those in `rs` is the same. -/
def SameRegsBut (rs : List Reg) (s t : State) : Prop := ∀ r, r ∉ rs → t.reg r = s.reg r

/-- Every cell of memory, the backing cells included, is the same. -/
def SameCells (s t : State) : Prop := ∀ a, t.cell a = s.cell a

/-- Keyboard and display are the same. -/
def SameConsole (s t : State) : Prop :=
  t.kbd = s.kbd ∧ t.kbdClosed = s.kbdClosed ∧ t.out = s.out ∧ t.outClosed = s.outClosed

/-- The controller is as it was: same `run`, same fault record, same wait. -/
def SameControl (s t : State) : Prop := t.run = s.run ∧ t.fault = s.fault ∧ t.hold = s.hold

/-- Everything but memory is the same, and every cell but the two backing cells of the mapped addresses. -/
def SameButBacking (s t : State) : Prop :=
  { s with mem := t.mem } = t ∧ ∀ a, isPlain a = true → t.cell a = s.cell a

/-- `t` is `s` after an instruction that defined `dr`: the flags follow the value in `dr`, and nothing else changed. -/
def Defines (dr : Reg) (s t : State) : Prop :=
  t.cc = ccOf (t.reg dr) ∧ SameRegsBut [dr] s t ∧ t.pc = s.pc ∧ SameCells s t ∧ SameConsole s t ∧ SameControl s t

/-- `t` is `s` with `v` stored in the cell at `a`, and nothing else changed. -/
def Stores (a v : Word) (s t : State) : Prop :=
  t.cell a = v ∧ (∀ b, b ≠ a → t.cell b = s.cell b) ∧ { t with mem := s.mem } = s

/-- What every TRAP leaves alone (45_trap.md R129): the registers but those in `rs`, R7 but for the link that `TRAP_LINK`
may ask for, pc, the flags, memory, and the host's two flags. -/
def TrapFrame (rs : List Reg) (s t : State) : Prop :=
  SameRegsBut (.r7 :: rs) s t ∧ t.reg .r7 = trapLinkValue Config.trapLink s.pc (s.reg .r7) ∧ t.pc = s.pc ∧
  t.cc = s.cc ∧ SameCells s t ∧ t.kbdClosed = s.kbdClosed ∧ t.outClosed = s.outClosed

/-- `t` is `s` after a TRAP whose word is `ir` met a console failure before it wrote anything: the record names the TRAP, and
nothing but the keyboard may have changed beyond the optional link (60_exceptions.md R151, 40_fetch_execute.md R75). -/
def TrapFails (ir : Word) (s t : State) : Prop :=
  t.run = .faulted ∧ t.fault = some ⟨.consoleIOFailure, s.pc - 1#16, some ir⟩ ∧ t.hold = s.hold ∧ t.out = s.out ∧
  TrapFrame [] s t

/-! ### Sound states -/

/-- A wait inside an instruction is at a call of `ConsoleRead()`: a read, or a walk, at the keyboard-data address, or GETC
or IN (40_fetch_execute.md R74). -/
def WaitPoint.atKeyboard : WaitPoint → Prop
  | .load _ a | .ldiPointer _ a | .stiPointer _ a | .puts a | .putsp a => a = Config.kbdrAddr
  | .getc | .inp => True

/-- The wait is one of instruction `i`. -/
def WaitPoint.ofInstr (i : Instr) : WaitPoint → Prop
  | .load dr _ => (∃ off, i = .ld dr off) ∨ (∃ off, i = .ldi dr off) ∨ ∃ base off, i = .ldr dr base off
  | .ldiPointer dr _ => ∃ off, i = .ldi dr off
  | .stiPointer sr _ => ∃ off, i = .sti sr off
  | .puts _ => i = .puts
  | .putsp _ => i = .putsp
  | .getc => i = .getc
  | .inp => i = .inp

/-- The states the machine can be in. -/
structure State.Inv (s : State) : Prop where
  /-- Memory has its canonical form. -/
  memWf : s.mem.wf = true
  /-- "The fault record `fault` is absent while `run` is Running or Halted and present while `run` is Faulted" (R21). -/
  faultIffFaulted : s.run = .faulted ↔ s.fault.isSome = true
  /-- Only a running processor waits. -/
  holdRunning : s.hold.isSome = true → s.run = .running
  /-- A wait in the fetch is at the keyboard-data address. -/
  holdFetch : s.hold = some .fetch → s.pc = Config.kbdrAddr
  /-- A wait inside an instruction is at the keyboard, and `ir` is the word of an instruction that waits there. -/
  holdWithin : ∀ ir p, s.hold = some (.within ir p) → p.atKeyboard ∧ ∃ i, decode ir = .ok i ∧ p.ofInstr i

/-- A run has ended well: "It ends well only in Halted" (40_fetch_execute.md R76). -/
def State.CleanStop (s : State) : Prop := s.run = .halted

/-- `s'` is reached from `s` by steps and host moves, the latter from a terminal state too: DESIGN CHOICE (assumption log 26,
safe). -/
inductive Reaches : State → State → Prop where
  | refl (s : State) : Reaches s s
  | step {s t u : State} : Reaches s t → step t = .next u → Reaches s u
  | type {s t : State} (c : Byte) : Reaches s t → Reaches s (t.typeChar c)
  | closeKeyboard {s t : State} : Reaches s t → Reaches s t.closeKeyboard
  | closeDisplay {s t : State} : Reaches s t → Reaches s t.closeDisplay

/-! ### Strings in memory, from 45_trap.md R124 and R126 -/

/-- The cells from `a` on, `n` of them, wrapping. -/
def cellsFrom (s : State) (a : Word) : Nat → List Word
  | 0 => []
  | n + 1 => s.cell a :: cellsFrom s (a + 1#16) n

/-- None of the `n` addresses from `a` on is mapped. -/
def plainFrom (a : Word) : Nat → Bool
  | 0 => true
  | n + 1 => isPlain a && plainFrom (a + 1#16) n

/-- The characters of packed cells: low byte, then high byte, up to the first zero byte (45_trap.md R126). -/
def packedChars : List Word → List Byte
  | [] => []
  | w :: ws =>
    if lowByte w = 0x00#8 then []
    else if highByte w = 0x00#8 then [lowByte w]
    else lowByte w :: highByte w :: packedChars ws

end Sys2Proof.Machine
end

