-- ==== Sys2Proof/Certificates/Slice0/Obligations.lean ====
section
/-! DEFINITION. The statements for the provers. In all of them `exec i s` runs `i` in the state after the fetch, so `s.pc`
is the incremented pc and `s.pc - 1` the instruction's address (40_fetch_execute.md R70, R72). -/

open Sys2Proof Sys2Proof.Machine

/-! ### Encoding -/

/-- Every well-formed instruction decodes from its own word, with every operand (30_encoding.md section 1; which instructions
are well-formed is the model's choice, assumption log 1). -/
def Obligations.DecodeInvertsEncode : Prop :=
  ∀ i : Instr, i.wellFormed = true → decode (encode i) = .ok i

/-- A decoded instruction's word is the word it was decoded from: no bit is dropped. It is well-formed in the model's own
sense of names, a choice the spec does not force (assumption log 1). -/
def Obligations.EncodeInvertsDecode : Prop :=
  ∀ (ir : Word) (i : Instr), decode ir = .ok i → encode i = ir ∧ i.wellFormed = true

/-- The decoder refuses exactly the words with a wrong fixed bit: the masks are those of the table of R58. Which bits are
fixed, and that the decoder checks them, is the spec's own decision (92 D6, 93 K5; assumption logs 11 and 12). -/
def Obligations.WordsWithAWrongFixedBitAreIllegal : Prop :=
  ∀ ir : Word, (∃ r, decode ir = .error r) ↔
    ((ir &&& 0xF020#16 = 0x1000#16 ∨ ir &&& 0xF020#16 = 0x5000#16) ∧ ir &&& 0x0018#16 ≠ 0x0000#16) ∨
    (ir &&& 0xF000#16 = 0x9000#16 ∧ ir &&& 0x003F#16 ≠ 0x003F#16) ∨
    (ir &&& 0xF800#16 = 0x4000#16 ∧ ir &&& 0x063F#16 ≠ 0x0000#16) ∨
    (ir &&& 0xF000#16 = 0xC000#16 ∧ ir &&& 0x0E3F#16 ≠ 0x0000#16) ∨
    (ir &&& 0xF000#16 = 0xF000#16 ∧ ir &&& 0x0F00#16 ≠ 0x0000#16)

/-- Words of the spec's worked examples, of each family, decode to the instructions the spec writes them for
(41_operate.md to 46_illegal.md; 95_test_vectors.md section 2.3 for LEA). The positions of the fields are the spec's from
general knowledge (93 K1, assumption log 11). -/
def Obligations.SpecWordsDecode : Prop :=
  decode 0x1401#16 = .ok (.addReg .r2 .r0 .r1) ∧ decode 0x12AF#16 = .ok (.addImm .r1 .r2 15#5) ∧
  decode 0x5283#16 = .ok (.andReg .r1 .r2 .r3) ∧ decode 0x52B0#16 = .ok (.andImm .r1 .r2 0b10000#5) ∧
  decode 0x92BF#16 = .ok (.not .r1 .r2) ∧ decode 0x2202#16 = .ok (.ld .r1 2#9) ∧
  decode 0xA201#16 = .ok (.ldi .r1 1#9) ∧ decode 0x62BF#16 = .ok (.ldr .r1 .r2 0b111111#6) ∧
  decode 0xE3FF#16 = .ok (.lea .r1 0x1FF#9) ∧ decode 0x3202#16 = .ok (.st .r1 2#9) ∧
  decode 0xB201#16 = .ok (.sti .r1 1#9) ∧ decode 0x72A0#16 = .ok (.str .r1 .r2 0b100000#6) ∧
  decode 0x0500#16 = .ok (.br false true false 0x100#9) ∧ decode 0x4803#16 = .ok (.jsr 3#11) ∧
  decode 0x4080#16 = .ok (.jsrr .r2) ∧ decode 0xC0C0#16 = .ok (.jmp .r3) ∧ decode 0xF026#16 = .ok (.trap 0x26#8)

/-- The opcode table's second names are names only: RET runs as `JMP R7`, GETC to HALT as `TRAP x20` to `TRAP x25`, each
from the same word, and the decoder gives what R56 gives, called by its row's name (assumption log 1: the constructors for
second names are the model's choice). -/
def Obligations.SecondNamesAreNamesOnly : Prop :=
  (∀ (i : Instr) (s : State), exec i s = exec i.canonical s) ∧
  (∀ i : Instr, encode i.canonical = encode i) ∧
  (∀ ir : Word, (decode ir).map Instr.canonical = decodeR56 ir)

/-! ### The step -/

/-- Fetch through the device decoder, increment, decode, execute or raise, in that order (R70). After a wait in the fetch
the step is the same, from the state without the wait (the wait as a state is the model's form, assumption log 3; that the
fetch passes through the device decoder is the spec's decision D11, assumption log 16). -/
def Obligations.StepRunsTheDecodedInstruction : Prop :=
  ∀ (s u : State) (ir : Word), s.run = .running → memRead s.pc { s with hold := none } = .done ir u →
    (s.hold = none ∨ s.hold = some .fetch) →
    (∀ i, decode ir = .ok i → step s = exec i { u with pc := s.pc + 1#16 }) ∧
    (∀ r, decode ir = .error r → step s = .next { u with
      pc := s.pc + 1#16, run := .faulted, fault := some ⟨.illegalInstruction, s.pc, some ir⟩ })

/-- At a plain address the fetched word is the cell's and the fetch has no side effect, so the step runs the instruction
stored there (40_fetch_execute.md, "If `ia` is a plain address the fetch has no side effect"). -/
def Obligations.PlainFetchRunsTheStoredInstruction : Prop :=
  ∀ (s : State) (i : Instr), s.run = .running → s.hold = none → isPlain s.pc = true → decode (s.cell s.pc) = .ok i →
    step s = exec i { s with pc := s.pc + 1#16 }

/-- The fetch at the keyboard-data address: a character is a never-taken branch; an empty keyboard holds with pc in place;
a closed one faults with pc incremented (R72 (d), 92 D15) and no word in the record. That pc is incremented there is DEDUCED
(assumption log 14), the wait as a state is the model's form (assumption log 3), and that the fetch reads the device at all
is the spec's decision (assumption log 16). -/
def Obligations.FetchAtTheKeyboardDataAddress : Prop :=
  ∀ s : State, s.run = .running → s.hold = none → s.pc = 0xFE02#16 →
    (∀ c rest, s.kbd = c :: rest → step s = .next { s with pc := 0xFE03#16, kbd := rest }) ∧
    (s.kbd = [] → s.kbdClosed = false → step s = .next { s with hold := some .fetch }) ∧
    (s.kbd = [] → s.kbdClosed = true → step s = .next { s with
      pc := 0xFE03#16, run := .faulted, fault := some ⟨.consoleIOFailure, 0xFE02#16, none⟩ })

/-- "No step is defined when `run` is Halted or Faulted" (R73): step answers a named stop there, the model's way to say it
(assumption log 13), and only there. -/
def Obligations.NoStepFromTerminalStates : Prop :=
  ∀ s : State, (s.run = .halted ↔ step s = .fault .haltedIsTerminal) ∧
    (s.run = .faulted ↔ step s = .fault .faultedIsTerminal) ∧ ∀ r, step s ≠ .refused r

/-- A running processor always steps, to one of R9's four outcomes: running, Halted, Faulted with a record, or a hold (a
state of its own: the model's form, assumption log 3). -/
def Obligations.RunningProcessorHasFourOutcomes : Prop :=
  ∀ s : State, s.Inv → s.run = .running → ∃ t, step s = .next t ∧
    ((t.run = .running ∧ t.hold = none) ∨ (t.run = .halted ∧ t.fault = none) ∨ (t.run = .faulted ∧ t.fault.isSome = true) ∨
      (t.run = .running ∧ t.hold.isSome = true ∧ t.kbd = [] ∧ t.kbdClosed = false))

/-- The word placed by `withFetchWord` is what the next step runs, from any state (assumption log 7: the model's choice). -/
def Obligations.PlacedWordIsRunNext : Prop :=
  ∀ (s : State) (w : Nat) (i : Instr), s.mem.wf = true → decode (BitVec.ofNat 16 w) = .ok i →
    ∃ u, step (s.withFetchWord 16 w) = exec i u ∧ u.pc = (s.withFetchWord 16 w).pc + 1#16 ∧ u.regs = s.regs ∧
      u.cc = s.cc ∧ SameConsole s u ∧ (isPlain s.pc = true → (s.withFetchWord 16 w).pc = s.pc)

/-! ### Invariants -/

/-- Every step from a sound state leads to a sound state: memory keeps its canonical form, a fault record stands exactly in
a Faulted machine, and a processor waits only at the keyboard, inside the instruction its word names. -/
def Obligations.StepKeepsInv : Prop :=
  ∀ s t : State, s.Inv → step s = .next t → t.Inv

/-- The host's moves keep a state sound: a character typed, the keyboard closed (R8), the display closed. The last is the
optional move of 92 D19, which the model has by its own choice (assumption log 9). That the moves are made in a Halted or
Faulted state too is the model's choice (assumption log 26). -/
def Obligations.HostMovesKeepInv : Prop :=
  ∀ (s : State) (c : Byte), s.Inv → (s.typeChar c).Inv ∧ s.closeKeyboard.Inv ∧ s.closeDisplay.Inv

/-- What reset leaves by the source: registers and memory zero, pc at `0x3000`, Running, no fault record, nothing written;
and a sound state. The pc and the memory are the defaults of two parameters (assumption log 7). (`cc` and the console at
reset are the choices of assumption logs 8 to 10 and are not stated here.) -/
def Obligations.ResetState : Prop :=
  (∀ r, State.reset.reg r = 0x0000#16) ∧ State.reset.pc = 0x3000#16 ∧ State.reset.run = .running ∧
  State.reset.fault = none ∧ (∀ a, State.reset.cell a = 0x0000#16) ∧ State.reset.out = [] ∧ State.reset.Inv

/-- The machine starts with the last of the loader's writes in each cell, zero elsewhere, and pc at the entry address. -/
def Obligations.LoadedMemoryHoldsTheLastWrite : Prop :=
  ∀ (entry : Word) (writes : List (Word × Word)),
    (∀ a, (State.resetWith entry writes).cell a =
      (((writes.filter fun aw => aw.1 == a).getLast?).map Prod.snd).getD 0x0000#16) ∧
    { State.resetWith entry writes with mem := [] } = { State.reset with pc := entry }

/-! ### Memory, flags, extension -/

/-- Two memories in canonical form with the same cells are the same list (assumption log 2: the model's form). -/
def Obligations.MemoriesWithTheSameCellsAreEqual : Prop :=
  ∀ m m' : Memory, m.wf = true → m'.wf = true → (∀ a, a < 65536 → m.read a = m'.read a) → m = m'

/-- `MemRead` (R34): the keyboard status polls and changes nothing, the keyboard data takes the head of the queue, holds, or
fails, and every other address is a cell. That a poll or a read of an empty keyboard depends on `kbd_closed` only so is the
spec's decision D18 (assumption log 22). -/
def Obligations.ReadsGoThroughTheDeviceDecoder : Prop :=
  ∀ (s : State) (a : Word),
    (a = 0xFE00#16 → memRead a s =
      .done ((if s.kbd = [] then 0x0000#16 else 0x8000#16) + Config.kbsrLow.setWidth 16) s) ∧
    (a = 0xFE02#16 →
      (∀ c rest, s.kbd = c :: rest → memRead a s = .done (c.setWidth 16) { s with kbd := rest }) ∧
      (s.kbd = [] → s.kbdClosed = false → memRead a s = .wait) ∧
      (s.kbd = [] → s.kbdClosed = true → memRead a s = .fail)) ∧
    (a ≠ 0xFE00#16 → a ≠ 0xFE02#16 → memRead a s = .done (s.cell a) s)

/-- `MemWrite` (R35) at every address: one cell and nothing else; a later read of a mapped address gives what it gave. -/
def Obligations.WritesChangeOneCell : Prop :=
  ∀ (s : State) (a v : Word), s.mem.wf = true →
    Stores a v s (s.memWrite a v) ∧
    ∀ b, b = 0xFE00#16 ∨ b = 0xFE02#16 → readValue b (s.memWrite a v) = readValue b s

/-- `setcc` (R17), by the value as a number: N from `0x8000` up, Z at 0, P between. -/
def Obligations.FlagsFollowTheSign : Prop :=
  ∀ (s : State) (v : Word),
    ((s.setcc v).cc = .n ↔ 0x8000 ≤ v.toNat) ∧ ((s.setcc v).cc = .z ↔ v.toNat = 0) ∧
    ((s.setcc v).cc = .p ↔ 1 ≤ v.toNat ∧ v.toNat ≤ 0x7FFF)

/-- `sext_N` (R54): masking gives the field back, the bits above it equal its top bit, and the value is as R54 computes it. -/
def Obligations.SignExtensionKeepsTheNumber : Prop :=
  ∀ n : Nat, n = 5 ∨ n = 6 ∨ n = 9 ∨ n = 11 → ∀ v : BitVec n,
    (sext v).setWidth n = v ∧ (∀ k, n ≤ k → k < 16 → (sext v).getLsbD k = v.getLsbD (n - 1)) ∧
    (sext v).toNat = if v.toNat < 2 ^ (n - 1) then v.toNat else v.toNat + 65536 - 2 ^ n

/-! ### Operate instructions and LEA -/

/-- ADD, both forms: the sum modulo 65,536 in DR, the flags from it, and nothing else (R81, R82). -/
def Obligations.AddWrapsAndSetsFlags : Prop :=
  ∀ (s : State) (dr sr1 : Reg),
    (∀ sr2, ∃ t, exec (.addReg dr sr1 sr2) s = .next t ∧
      (t.reg dr).toNat = ((s.reg sr1).toNat + (s.reg sr2).toNat) % 65536 ∧ Defines dr s t) ∧
    (∀ imm5, ∃ t, exec (.addImm dr sr1 imm5) s = .next t ∧
      (t.reg dr).toNat = ((s.reg sr1).toNat + (sext imm5).toNat) % 65536 ∧ Defines dr s t)

/-- AND, both forms: the bitwise conjunction in DR, the flags from it, and nothing else (R83, R84). -/
def Obligations.AndIsBitwiseAndSetsFlags : Prop :=
  ∀ (s : State) (dr sr1 : Reg),
    (∀ sr2, ∃ t, exec (.andReg dr sr1 sr2) s = .next t ∧
      (∀ k, (t.reg dr).getLsbD k = ((s.reg sr1).getLsbD k && (s.reg sr2).getLsbD k)) ∧ Defines dr s t) ∧
    (∀ imm5, ∃ t, exec (.andImm dr sr1 imm5) s = .next t ∧
      (∀ k, (t.reg dr).getLsbD k = ((s.reg sr1).getLsbD k && (sext imm5).getLsbD k)) ∧ Defines dr s t)

/-- NOT: `0xFFFF - x[SR]` in DR, the flags from it, and nothing else (R85). -/
def Obligations.NotComplementsAndSetsFlags : Prop :=
  ∀ (s : State) (dr sr : Reg), ∃ t, exec (.not dr sr) s = .next t ∧
    (t.reg dr).toNat = 0xFFFF - (s.reg sr).toNat ∧ Defines dr s t

/-- LEA: the address in DR, the flags from it, no memory access (R93). -/
def Obligations.LeaWritesTheAddressAndSetsFlags : Prop :=
  ∀ (s : State) (dr : Reg) (off : BitVec 9), ∃ t, exec (.lea dr off) s = .next t ∧
    t.reg dr = s.pc + sext off ∧ Defines dr s t

/-! ### Loads -/

/-- LD and LDR, where their read completes: what `MemRead` gives in DR, the flags from it, and nothing else but the
character taken (R90, R92). -/
def Obligations.LoadsWriteWhatTheyRead : Prop :=
  ∀ (s : State) (dr : Reg),
    (∀ off, ReadReady (s.pc + sext off) s → ∃ t, exec (.ld dr off) s = .next t ∧
      t.reg dr = readValue (s.pc + sext off) s ∧ Defines dr (afterRead (s.pc + sext off) s) t) ∧
    (∀ base off, ReadReady (s.reg base + sext off) s → ∃ t, exec (.ldr dr base off) s = .next t ∧
      t.reg dr = readValue (s.reg base + sext off) s ∧ Defines dr (afterRead (s.reg base + sext off) s) t)

/-- LDI, where both reads complete: the pointer, then the datum, whose value goes to DR and the flags (R91). -/
def Obligations.LdiReadsThroughThePointer : Prop :=
  ∀ (s u : State) (dr : Reg) (off : BitVec 9) (pointer : Word),
    ReadReady (s.pc + sext off) s → pointer = readValue (s.pc + sext off) s → u = afterRead (s.pc + sext off) s →
    ReadReady pointer u →
    ∃ t, exec (.ldi dr off) s = .next t ∧ t.reg dr = readValue pointer u ∧ Defines dr (afterRead pointer u) t

/-- A load whose read meets an empty keyboard waits there with nothing else done, or takes the console failure once the
keyboard is closed; LDI at either of its reads, the first staying done (20_memory.md section 3; 40_fetch_execute.md section 3;
that a wait is a state of its own is the model's form, assumption log 3; the failure is the spec's decision D18). -/
def Obligations.LoadsWaitForOrFailWithoutACharacter : Prop :=
  ∀ (s : State) (dr : Reg), s.kbd = [] →
    (∀ off, s.pc + sext off = 0xFE02#16 → exec (.ld dr off) s =
      .next (if s.kbdClosed then s.raise .consoleIOFailure (s.pc - 1#16) (some (encode (.ld dr off)))
        else { s with hold := some (.within (encode (.ld dr off)) (.load dr 0xFE02#16)) })) ∧
    (∀ base off, s.reg base + sext off = 0xFE02#16 → exec (.ldr dr base off) s =
      .next (if s.kbdClosed then s.raise .consoleIOFailure (s.pc - 1#16) (some (encode (.ldr dr base off)))
        else { s with hold := some (.within (encode (.ldr dr base off)) (.load dr 0xFE02#16)) })) ∧
    (∀ off, s.pc + sext off = 0xFE02#16 → exec (.ldi dr off) s =
      .next (if s.kbdClosed then s.raise .consoleIOFailure (s.pc - 1#16) (some (encode (.ldi dr off)))
        else { s with hold := some (.within (encode (.ldi dr off)) (.ldiPointer dr 0xFE02#16)) })) ∧
    (∀ off, isPlain (s.pc + sext off) = true → s.cell (s.pc + sext off) = 0xFE02#16 → exec (.ldi dr off) s =
      .next (if s.kbdClosed then s.raise .consoleIOFailure (s.pc - 1#16) (some (encode (.ldi dr off)))
        else { s with hold := some (.within (encode (.ldi dr off)) (.load dr 0xFE02#16)) }))

/-! ### Stores -/

/-- ST and STR: the register in the one cell, at every address, and nothing else (R100, R102). -/
def Obligations.StoresWriteOneCell : Prop :=
  ∀ (s : State) (sr : Reg), s.mem.wf = true →
    (∀ off, ∃ t, exec (.st sr off) s = .next t ∧ Stores (s.pc + sext off) (s.reg sr) s t) ∧
    (∀ base off, ∃ t, exec (.str sr base off) s = .next t ∧ Stores (s.reg base + sext off) (s.reg sr) s t)

/-- STI: the register in the cell its pointer names, and nothing else but a character taken by the pointer read; without a
character it waits, or fails once the keyboard is closed (R101; the wait as a state is assumption log 3). -/
def Obligations.StiStoresThroughThePointer : Prop :=
  ∀ (s : State) (sr : Reg) (off : BitVec 9), s.mem.wf = true →
    (ReadReady (s.pc + sext off) s → ∃ t, exec (.sti sr off) s = .next t ∧
      Stores (readValue (s.pc + sext off) s) (s.reg sr) (afterRead (s.pc + sext off) s) t) ∧
    (s.pc + sext off = 0xFE02#16 → s.kbd = [] → exec (.sti sr off) s =
      .next (if s.kbdClosed then s.raise .consoleIOFailure (s.pc - 1#16) (some (encode (.sti sr off)))
        else { s with hold := some (.within (encode (.sti sr off)) (.stiPointer sr 0xFE02#16)) }))

/-- A store to the next instruction is what the next fetch reads, with no action by the program (R46). -/
def Obligations.StoredWordIsFetchedNext : Prop :=
  ∀ (s t : State) (sr : Reg), s.mem.wf = true → isPlain s.pc = true →
    (∀ off, s.pc + sext off = s.pc → exec (.st sr off) s = .next t → memRead t.pc t = .done (s.reg sr) t) ∧
    (∀ base off, s.reg base + sext off = s.pc → exec (.str sr base off) s = .next t →
      memRead t.pc t = .done (s.reg sr) t) ∧
    (∀ off, isPlain (s.pc + sext off) = true → s.cell (s.pc + sext off) = s.pc → exec (.sti sr off) s = .next t →
      memRead t.pc t = .done (s.reg sr) t)

/-! ### Control transfer -/

/-- BR: taken exactly when a named flag is the current one; nothing but pc changes (R110). -/
def Obligations.BranchIsTakenOnANamedFlag : Prop :=
  ∀ (s : State) (n z p : Bool) (off : BitVec 9), exec (.br n z p off) s = .next { s with
    pc := if (n = true ∧ s.cc = .n) ∨ (z = true ∧ s.cc = .z) ∨ (p = true ∧ s.cc = .p) then s.pc + sext off else s.pc }

/-- JSR: R7 the return address, pc the target, nothing else (R111). -/
def Obligations.JsrLinksAndJumps : Prop :=
  ∀ (s : State) (off : BitVec 11), ∃ t, exec (.jsr off) s = .next t ∧ t.reg .r7 = s.pc ∧ t.pc = s.pc + sext off ∧
    SameRegsBut [.r7] s t ∧ t.cc = s.cc ∧ SameCells s t ∧ SameConsole s t ∧ SameControl s t

/-- JSRR: R7 the return address, pc the base register, nothing else; the base is read after R7 is written, so `JSRR R7`
falls through. That order is the spec's own decision (92 D17, assumption log 15). -/
def Obligations.JsrrLinksThenReadsTheBase : Prop :=
  ∀ (s : State) (base : Reg), ∃ t, exec (.jsrr base) s = .next t ∧ t.reg .r7 = s.pc ∧
    t.pc = (if base = .r7 then s.pc else s.reg base) ∧
    SameRegsBut [.r7] s t ∧ t.cc = s.cc ∧ SameCells s t ∧ SameConsole s t ∧ SameControl s t

/-- JMP, and RET with R7: pc the register, nothing else (R113, R114). -/
def Obligations.JmpAndRetGoToTheRegister : Prop :=
  ∀ s : State, (∀ base, exec (.jmp base) s = .next { s with pc := s.reg base }) ∧
    exec .ret s = .next { s with pc := s.reg .r7 }

/-- A JSR whose target is `JMP R7` returns, in two steps, to the address after the JSR (44_control.md section on RET:
`pc_after_jmp == pc_before_jsr + 1`). -/
def Obligations.CallThenReturnComesBack : Prop :=
  ∀ (s : State) (off : BitVec 11), s.run = .running → s.hold = none → isPlain s.pc = true →
    decode (s.cell s.pc) = .ok (.jsr off) → isPlain (s.pc + 1#16 + sext off) = true →
    s.cell (s.pc + 1#16 + sext off) = 0xC1C0#16 →
    ∃ t : State, Sys2Proof.core.run 2 s = .next t ∧ t.pc = s.pc + 1#16

/-! ### TRAP and the routines -/

/-- GETC with a character there: R0 the character, zero-extended, taken from the queue; no echo (R122). That no other
register is written is the spec's decision D10 (assumption log 21). -/
def Obligations.GetcReadsACharacter : Prop :=
  ∀ (s : State) (c : Byte) (rest : List Byte), s.kbd = c :: rest → ∃ t, exec .getc s = .next t ∧
    t.reg .r0 = c.setWidth 16 ∧ t.kbd = rest ∧ t.out = s.out ∧ SameControl s t ∧ TrapFrame [.r0] s t

/-- IN with a character there, on an open display: the prompt and the echo written, R0 the character (R125); no
other register, by D10 (assumption log 21). -/
def Obligations.InPromptsReadsAndEchoes : Prop :=
  ∀ (s : State) (c : Byte) (rest : List Byte), s.kbd = c :: rest → s.outClosed = false → ∃ t, exec .inp s = .next t ∧
    t.reg .r0 = c.setWidth 16 ∧ t.kbd = rest ∧ t.out = s.out ++ Config.inPrompt ++ [c] ∧ SameControl s t ∧
    TrapFrame [.r0] s t

/-- GETC and IN on an empty keyboard: they wait with R0 as it was, IN's prompt already written, or fail once the keyboard is
closed (45_trap.md section 2; the wait as a state is the model's form, assumption log 3; no register written, by D10,
assumption log 21). -/
def Obligations.GetcAndInWaitOrFailWithoutACharacter : Prop :=
  ∀ s : State, s.kbd = [] →
    (∃ t, exec .getc s = .next t ∧ t.out = s.out ∧ t.kbd = [] ∧ TrapFrame [] s t ∧
      (s.kbdClosed = false → t.hold = some (.within 0xF020#16 .getc) ∧ t.run = s.run ∧ t.fault = s.fault) ∧
      (s.kbdClosed = true → t.hold = s.hold ∧ t.run = .faulted ∧
        t.fault = some ⟨.consoleIOFailure, s.pc - 1#16, some 0xF020#16⟩)) ∧
    (s.outClosed = false → ∃ t, exec .inp s = .next t ∧ t.out = s.out ++ Config.inPrompt ∧ t.kbd = [] ∧ TrapFrame [] s t ∧
      (s.kbdClosed = false → t.hold = some (.within 0xF023#16 .inp) ∧ t.run = s.run ∧ t.fault = s.fault) ∧
      (s.kbdClosed = true → t.hold = s.hold ∧ t.run = .faulted ∧
        t.fault = some ⟨.consoleIOFailure, s.pc - 1#16, some 0xF023#16⟩))

/-- OUT on an open display: the low byte of R0 written, nothing else (R123; no register, by D10, assumption log 21). -/
def Obligations.OutWritesTheLowByte : Prop :=
  ∀ s : State, s.outClosed = false → ∃ t, exec .out s = .next t ∧
    t.out = s.out ++ [(s.reg .r0).extractLsb' 0 8] ∧ t.kbd = s.kbd ∧ SameControl s t ∧ TrapFrame [] s t

/-- PUTS over `n` cells that are not zero and one that is, all at plain addresses: the low byte of each, in order; the
zero cell is not written, and R0 keeps the start address (R124; no register is written, by D10, assumption log 21). -/
def Obligations.PutsWritesTheString : Prop :=
  ∀ (s : State) (n : Nat), s.outClosed = false → plainFrom (s.reg .r0) (n + 1) = true →
    (∀ w ∈ cellsFrom s (s.reg .r0) n, w ≠ 0x0000#16) → s.cell (s.reg .r0 + BitVec.ofNat 16 n) = 0x0000#16 →
    ∃ t, exec .puts s = .next t ∧
      t.out = s.out ++ (cellsFrom s (s.reg .r0) n).map (fun w => w.extractLsb' 0 8) ∧ t.kbd = s.kbd ∧ SameControl s t ∧
      TrapFrame [] s t

/-- PUTSP over `n` cells with no zero byte and one with a zero byte, all at plain addresses: low byte, then high byte, of
each cell up to the first zero byte (R126; no register is written, by D10, assumption log 21). -/
def Obligations.PutspWritesThePackedString : Prop :=
  ∀ (s : State) (n : Nat), s.outClosed = false → plainFrom (s.reg .r0) (n + 1) = true →
    (∀ w ∈ cellsFrom s (s.reg .r0) n, w.extractLsb' 0 8 ≠ 0x00#8 ∧ w.extractLsb' 8 8 ≠ 0x00#8) →
    ((s.cell (s.reg .r0 + BitVec.ofNat 16 n)).extractLsb' 0 8 = 0x00#8 ∨
      (s.cell (s.reg .r0 + BitVec.ofNat 16 n)).extractLsb' 8 8 = 0x00#8) →
    ∃ t, exec .putsp s = .next t ∧ t.out = s.out ++ packedChars (cellsFrom s (s.reg .r0) (n + 1)) ∧ t.kbd = s.kbd ∧
      SameControl s t ∧ TrapFrame [] s t

/-- PUTS one cell at a time, at every address (R124, R129 (c), R74, R75, R151). It starts at R0 and, after a wait, goes on
from the cell it waits at; each cell is read once and its low byte written once before the next. At `0xFE00` the cell is the
status value; at `0xFE02` it is a character, consumed and written; without one the walk waits there, all before it already
in `out`, or fails once the keyboard is closed. That a walk reads the devices is the spec's decision D11 (assumption log 16),
the failure is D18 (assumption log 22), the wait as a state is the model's form (assumption log 3). -/
def Obligations.PutsGoesCellByCell : Prop :=
  ∀ (ir a : Word) (s : State),
    exec .puts s = .next (putsFrom 0xF022#16 (s.reg .r0) s.trapLinked) ∧
    (s.run = .running → s.hold = some (.within ir (.puts a)) → step s = .next (putsFrom ir a { s with hold := none })) ∧
    (isPlain a = true →
      (s.cell a = 0x0000#16 → putsFrom ir a s = s) ∧
      (s.cell a ≠ 0x0000#16 → s.outClosed = false → putsFrom ir a s =
        putsFrom ir (a + 1#16) { s with out := s.out ++ [(s.cell a).extractLsb' 0 8] })) ∧
    (a = 0xFE00#16 → ∀ v, v = (if s.kbd = [] then 0x0000#16 else 0x8000#16) + Config.kbsrLow.setWidth 16 →
      (v = 0x0000#16 → putsFrom ir a s = s) ∧
      (v ≠ 0x0000#16 → s.outClosed = false → putsFrom ir a s =
        putsFrom ir 0xFE01#16 { s with out := s.out ++ [v.extractLsb' 0 8] })) ∧
    (a = 0xFE02#16 →
      (∀ rest, s.kbd = 0x00#8 :: rest → putsFrom ir a s = { s with kbd := rest }) ∧
      (∀ c rest, s.kbd = c :: rest → c ≠ 0x00#8 → s.outClosed = false → putsFrom ir a s =
        putsFrom ir 0xFE03#16 { s with kbd := rest, out := s.out ++ [c] }) ∧
      (s.kbd = [] → s.kbdClosed = false → putsFrom ir a s = { s with hold := some (.within ir (.puts 0xFE02#16)) }) ∧
      (s.kbd = [] → s.kbdClosed = true → putsFrom ir a s = s.raise .consoleIOFailure (s.pc - 1#16) (some ir)))

/-- PUTSP one cell at a time, at every address (R126, R129 (c), R74, R75, R151), as PUTS: low byte, then high byte, ending at
the first zero byte, so that a character read at `0xFE02` is written and ends the string. That a walk reads the devices is
the spec's decision D11 (assumption log 16), the failure is D18 (assumption log 22), the wait as a state is the model's form
(assumption log 3). -/
def Obligations.PutspGoesCellByCell : Prop :=
  ∀ (ir a : Word) (s : State),
    exec .putsp s = .next (putspFrom 0xF024#16 (s.reg .r0) s.trapLinked) ∧
    (s.run = .running → s.hold = some (.within ir (.putsp a)) → step s = .next (putspFrom ir a { s with hold := none })) ∧
    (∀ v, (isPlain a = true ∧ v = s.cell a) ∨
        (a = 0xFE00#16 ∧ v = (if s.kbd = [] then 0x0000#16 else 0x8000#16) + Config.kbsrLow.setWidth 16) →
      (v.extractLsb' 0 8 = 0x00#8 → putspFrom ir a s = s) ∧
      (v.extractLsb' 0 8 ≠ 0x00#8 → v.extractLsb' 8 8 = 0x00#8 → s.outClosed = false → putspFrom ir a s =
        { s with out := s.out ++ [v.extractLsb' 0 8] }) ∧
      (v.extractLsb' 0 8 ≠ 0x00#8 → v.extractLsb' 8 8 ≠ 0x00#8 → s.outClosed = false → putspFrom ir a s =
        putspFrom ir (a + 1#16) { s with out := s.out ++ [v.extractLsb' 0 8, v.extractLsb' 8 8] })) ∧
    (a = 0xFE02#16 →
      (∀ rest, s.kbd = 0x00#8 :: rest → putspFrom ir a s = { s with kbd := rest }) ∧
      (∀ c rest, s.kbd = c :: rest → c ≠ 0x00#8 → s.outClosed = false → putspFrom ir a s =
        { s with kbd := rest, out := s.out ++ [c] }) ∧
      (s.kbd = [] → s.kbdClosed = false → putspFrom ir a s = { s with hold := some (.within ir (.putsp 0xFE02#16)) }) ∧
      (s.kbd = [] → s.kbdClosed = true → putspFrom ir a s = s.raise .consoleIOFailure (s.pc - 1#16) (some ir)))

/-- HALT on an open display: the notice written, the machine Halted, nothing else (R127; no register, by D10, assumption
log 21; the notice goes to `out`, by D13, assumption log 6). -/
def Obligations.HaltStopsTheMachine : Prop :=
  ∀ s : State, s.outClosed = false → ∃ t, exec .halt s = .next t ∧ t.run = .halted ∧ t.out = s.out ++ Config.haltNotice ∧
    t.kbd = s.kbd ∧ t.fault = s.fault ∧ t.hold = s.hold ∧ TrapFrame [] s t

/-- TRAP with an unrecognised vector: Faulted, with cause IllegalTrap, the TRAP's address and its word; no routine runs
(R128). -/
def Obligations.UnrecognisedVectorFaults : Prop :=
  ∀ (s : State) (v : Byte), v.toNat < 0x20 ∨ 0x25 < v.toNat → ∃ t, exec (.trap v) s = .next t ∧ t.run = .faulted ∧
    t.fault = some ⟨.illegalTrap, s.pc - 1#16, some (0xF000#16 + v.setWidth 16)⟩ ∧ t.hold = s.hold ∧ SameConsole s t ∧
    TrapFrame [] s t

/-- RTI and the reserved opcode: Faulted, with cause IllegalInstruction, the word's address and the raw word, and nothing
else changed (R140, R141). That opcode `1000` is RTI and faults is the spec's decision D5 (assumption log 12). -/
def Obligations.RtiAndReservedFault : Prop :=
  ∀ (s : State) (low : BitVec 12),
    exec (.rti low) s = .next { s with
      run := .faulted, fault := some ⟨.illegalInstruction, s.pc - 1#16, some (0x8000#16 + low.setWidth 16)⟩ } ∧
    exec (.reserved low) s = .next { s with
      run := .faulted, fault := some ⟨.illegalInstruction, s.pc - 1#16, some (0xD000#16 + low.setWidth 16)⟩ }

/-- On a closed display OUT takes the console failure and writes nothing (92 D19: an optional side of the spec, which the
model has, assumption log 9). -/
def Obligations.OutFailsOnAClosedDisplay : Prop :=
  ∀ s : State, s.outClosed = true → ∃ t, exec .out s = .next t ∧ t.run = .faulted ∧
    t.fault = some ⟨.consoleIOFailure, s.pc - 1#16, some 0xF021#16⟩ ∧ t.hold = s.hold ∧ SameConsole s t ∧ TrapFrame [] s t

/-- The other routines on a closed display write nothing and fail at their first write, with what they read already taken:
IN at its prompt, or, where the prompt is empty or already written, at its echo, the character consumed and R0 as it was;
PUTS and PUTSP at their first character; HALT at its notice, not Halted. With nothing to write they do as on an open display
(92 D19: an optional side of the spec, which the model has, and "nothing to write is no failure", assumption log 9; no
register is written, by D10, assumption log 21; the wait as a state is assumption log 3). -/
def Obligations.RoutinesFailOnAClosedDisplay : Prop :=
  ∀ s : State, s.outClosed = true →
    (∀ c rest, s.kbd = c :: rest → ∃ t, exec .inp s = .next t ∧ TrapFails 0xF023#16 s t ∧
      t.kbd = if Config.inPrompt = [] then rest else s.kbd) ∧
    (s.kbd = [] → s.kbdClosed = true → ∃ t, exec .inp s = .next t ∧ TrapFails 0xF023#16 s t ∧ t.kbd = []) ∧
    (s.kbd = [] → s.kbdClosed = false → ∃ t, exec .inp s = .next t ∧ t.kbd = [] ∧ if Config.inPrompt = [] then
      t.hold = some (.within 0xF023#16 .inp) ∧ t.run = s.run ∧ t.fault = s.fault ∧ t.out = s.out ∧ TrapFrame [] s t
      else TrapFails 0xF023#16 s t) ∧
    (ReadReady (s.reg .r0) s → ∃ t, exec .puts s = .next t ∧ t.kbd = kbdAfterRead (s.reg .r0) s ∧
      if readValue (s.reg .r0) s = 0x0000#16 then SameControl s t ∧ t.out = s.out ∧ TrapFrame [] s t
      else TrapFails 0xF022#16 s t) ∧
    (ReadReady (s.reg .r0) s → ∃ t, exec .putsp s = .next t ∧ t.kbd = kbdAfterRead (s.reg .r0) s ∧
      if (readValue (s.reg .r0) s).extractLsb' 0 8 = 0x00#8 then SameControl s t ∧ t.out = s.out ∧ TrapFrame [] s t
      else TrapFails 0xF024#16 s t) ∧
    (∃ t, exec .halt s = .next t ∧ t.kbd = s.kbd ∧ if Config.haltNotice = [] then
      t.run = .halted ∧ t.fault = s.fault ∧ t.hold = s.hold ∧ t.out = s.out ∧ TrapFrame [] s t
      else TrapFails 0xF025#16 s t) ∧
    (∀ ir c rest, s.run = .running → s.kbd = c :: rest →
      (s.hold = some (.within ir .inp) → step s =
        .next ({ s with hold := none, kbd := rest }.raise .consoleIOFailure (s.pc - 1#16) (some ir))) ∧
      (s.hold = some (.within ir (.puts 0xFE02#16)) ∨ s.hold = some (.within ir (.putsp 0xFE02#16)) → step s =
        .next (if c = 0x00#8 then { s with hold := none, kbd := rest }
          else { s with hold := none, kbd := rest }.raise .consoleIOFailure (s.pc - 1#16) (some ir))))

/-! ### Waiting -/

/-- A step that leaves the processor waiting does so with an empty, open keyboard: PUTS and PUTSP, however long, are never
cut short (40_fetch_execute.md section 3; 92 D1; assumption log 18). -/
def Obligations.ProcessorWaitsOnlyForAnEmptyKeyboard : Prop :=
  ∀ s t : State, step s = .next t → t.hold ≠ none → t.kbd = [] ∧ t.kbdClosed = false

/-- While the keyboard stays empty and open, a waiting processor makes no progress; once it is closed, the wait ends in the
console failure, its record naming the instruction (20_memory.md section 3, `ConsoleRead`). The wait as a state is the
model's form (assumption log 3); that a failed fetch increments pc is DEDUCED from R72 (d) (assumption log 14). -/
def Obligations.WaitLastsUntilTheHostMoves : Prop :=
  ∀ s : State, s.Inv → s.kbd = [] →
    (s.hold.isSome = true → s.kbdClosed = false → step s = .next s) ∧
    (∀ ir p, s.hold = some (.within ir p) → s.kbdClosed = true → step s = .next { s with
      hold := none, run := .faulted, fault := some ⟨.consoleIOFailure, s.pc - 1#16, some ir⟩ }) ∧
    (s.hold = some .fetch → s.kbdClosed = true → step s = .next { s with
      hold := none, pc := s.pc + 1#16, run := .faulted, fault := some ⟨.consoleIOFailure, s.pc, none⟩ })

/-- An instruction that waits, then gets a character and goes on, ends exactly as if the character had been there before it
began (40_fetch_execute.md section 3: the two forms of a wait "give the same final state"). PUTS and PUTSP are left out: a
walk may have read the keyboard status on its way. -/
def Obligations.WaitingThenTypingIsTypingThenRunning : Prop :=
  ∀ (i : Instr) (s t : State) (c : Byte), i.walks = false → s.run = .running → s.hold = none → exec i s = .next t →
    t.hold ≠ none → step (t.typeChar c) = exec i (s.typeChar c)

/-! ### Whole-machine rules -/

/-- No instruction writes a register but its destinations (10_state.md section 1; R7 of TRAP only by its link). -/
def Obligations.OnlyDestinationsAreWritten : Prop :=
  ∀ (i : Instr) (s t : State), exec i s = .next t → SameRegsBut i.dests s t ∧
    (i.isTrap = true → t.reg .r7 = trapLinkValue Config.trapLink s.pc (s.reg .r7))

/-- Exactly the seven instructions write the flags, each from the value in its destination; a load that waits or fails, and
every other instruction, leaves them (R16). -/
def Obligations.OnlySevenInstructionsWriteFlags : Prop :=
  ∀ (i : Instr) (s t : State), exec i s = .next t →
    (i.definesFlags = false → t.cc = s.cc) ∧
    (i.definesFlags = true → s.hold = none → s.run = .running →
      (SameControl s t → ∀ r ∈ i.dests, t.cc = ccOf (t.reg r)) ∧ (¬ SameControl s t → t.cc = s.cc))

/-- Only stores write memory, each only the cell at the address it computes (20_memory.md sections 2 and 7). -/
def Obligations.OnlyStoresWriteMemory : Prop :=
  ∀ (i : Instr) (s t : State), exec i s = .next t →
    (∀ a, i.storeAddress s = some a → ∀ b, b ≠ a → t.cell b = s.cell b) ∧ (i.storeAddress s = none → t.mem = s.mem)

/-- Only the control transfers move pc beyond the increment of the fetch (10_state.md section 2). -/
def Obligations.OnlyTransfersMovePc : Prop :=
  ∀ (i : Instr) (s t : State), exec i s = .next t → i.isTransfer = false → t.pc = s.pc

/-- Across any step input is only taken from the head of the queue, output is only appended, and the host's flags stay. -/
def Obligations.ConsoleOnlyMovesForward : Prop :=
  ∀ s t : State, step s = .next t → (∃ k, s.kbd = k ++ t.kbd) ∧ (∃ o, t.out = s.out ++ o) ∧
    t.kbdClosed = s.kbdClosed ∧ t.outClosed = s.outClosed

/-- Only HALT halts: a step into Halted ran the word `0xF025`, from a processor that was not inside an instruction. -/
def Obligations.OnlyHaltHalts : Prop :=
  ∀ s t : State, s.run = .running → step s = .next t → t.run = .halted →
    (s.hold = none ∨ s.hold = some .fetch) ∧ ∃ u, memRead s.pc s = .done 0xF025#16 u

/-- A fault's record names the word being fetched or executed: its address, not the incremented pc, and the raw word,
absent only when the fetch itself failed; pc is the incremented one (10_state.md section 4, 60_exceptions.md section 1; pc
after a failed fetch is DEDUCED from R72 (d), assumption log 14; the wait as a state is assumption log 3). -/
def Obligations.FaultRecordNamesTheFaultingWord : Prop :=
  ∀ (s t : State) (r : FaultRecord), s.Inv → step s = .next t → t.fault = some r →
    ((s.hold = none ∨ s.hold = some .fetch) → r.addr = s.pc ∧ t.pc = s.pc + 1#16 ∧
      ((∃ ir u, memRead s.pc s = .done ir u ∧ r.word = some ir) ∨
        (memRead s.pc s = .fail ∧ r.word = none ∧ r.cause = .consoleIOFailure))) ∧
    (∀ ir p, s.hold = some (.within ir p) →
      r = ⟨.consoleIOFailure, s.pc - 1#16, some ir⟩ ∧ t.pc = s.pc)

/-- A program cannot observe what it has written: two states that differ only in `out` step alike and write the same. -/
def Obligations.OutputIsNeverObserved : Prop :=
  ∀ (s t : State) (o : List Byte), step s = .next t → ∃ d, t.out = s.out ++ d ∧
    step { s with out := o } = .next { t with out := o ++ d }

/-- The backing cells of the mapped addresses are never observed: two states that differ only there step alike, to states
that differ only there (10_state.md section 7). -/
def Obligations.BackingCellsAreNeverObserved : Prop :=
  ∀ s s' t : State, s.mem.wf = true → s'.mem.wf = true → SameButBacking s s' → step s = .next t →
    ∃ t', step s' = .next t' ∧ SameButBacking t t'
end

