-- ==== Sys2Proof/Laws/State.lean ====
section
/-! SUPPORT. One lemma per field of State per update, each true by rfl, so that no proof unfolds an update. -/

namespace Sys2Proof.Machine

variable (s : State)

/-! ### setReg -/

@[simp] theorem setReg_regs (r : Reg) (v : Word) : (s.setReg r v).regs = s.regs.set r v := rfl
@[simp] theorem setReg_pc (r : Reg) (v : Word) : (s.setReg r v).pc = s.pc := rfl
@[simp] theorem setReg_cc (r : Reg) (v : Word) : (s.setReg r v).cc = s.cc := rfl
@[simp] theorem setReg_run (r : Reg) (v : Word) : (s.setReg r v).run = s.run := rfl
@[simp] theorem setReg_fault (r : Reg) (v : Word) : (s.setReg r v).fault = s.fault := rfl
@[simp] theorem setReg_mem (r : Reg) (v : Word) : (s.setReg r v).mem = s.mem := rfl
@[simp] theorem setReg_kbd (r : Reg) (v : Word) : (s.setReg r v).kbd = s.kbd := rfl
@[simp] theorem setReg_kbdClosed (r : Reg) (v : Word) : (s.setReg r v).kbdClosed = s.kbdClosed := rfl
@[simp] theorem setReg_out (r : Reg) (v : Word) : (s.setReg r v).out = s.out := rfl
@[simp] theorem setReg_outClosed (r : Reg) (v : Word) : (s.setReg r v).outClosed = s.outClosed := rfl
@[simp] theorem setReg_hold (r : Reg) (v : Word) : (s.setReg r v).hold = s.hold := rfl

/-! ### setPc -/

@[simp] theorem setPc_regs (v : Word) : (s.setPc v).regs = s.regs := rfl
@[simp] theorem setPc_pc (v : Word) : (s.setPc v).pc = v := rfl
@[simp] theorem setPc_cc (v : Word) : (s.setPc v).cc = s.cc := rfl
@[simp] theorem setPc_run (v : Word) : (s.setPc v).run = s.run := rfl
@[simp] theorem setPc_fault (v : Word) : (s.setPc v).fault = s.fault := rfl
@[simp] theorem setPc_mem (v : Word) : (s.setPc v).mem = s.mem := rfl
@[simp] theorem setPc_kbd (v : Word) : (s.setPc v).kbd = s.kbd := rfl
@[simp] theorem setPc_kbdClosed (v : Word) : (s.setPc v).kbdClosed = s.kbdClosed := rfl
@[simp] theorem setPc_out (v : Word) : (s.setPc v).out = s.out := rfl
@[simp] theorem setPc_outClosed (v : Word) : (s.setPc v).outClosed = s.outClosed := rfl
@[simp] theorem setPc_hold (v : Word) : (s.setPc v).hold = s.hold := rfl

/-! ### setcc -/

@[simp] theorem setcc_regs (v : Word) : (s.setcc v).regs = s.regs := rfl
@[simp] theorem setcc_pc (v : Word) : (s.setcc v).pc = s.pc := rfl
@[simp] theorem setcc_cc (v : Word) : (s.setcc v).cc = ccOf v := rfl
@[simp] theorem setcc_run (v : Word) : (s.setcc v).run = s.run := rfl
@[simp] theorem setcc_fault (v : Word) : (s.setcc v).fault = s.fault := rfl
@[simp] theorem setcc_mem (v : Word) : (s.setcc v).mem = s.mem := rfl
@[simp] theorem setcc_kbd (v : Word) : (s.setcc v).kbd = s.kbd := rfl
@[simp] theorem setcc_kbdClosed (v : Word) : (s.setcc v).kbdClosed = s.kbdClosed := rfl
@[simp] theorem setcc_out (v : Word) : (s.setcc v).out = s.out := rfl
@[simp] theorem setcc_outClosed (v : Word) : (s.setcc v).outClosed = s.outClosed := rfl
@[simp] theorem setcc_hold (v : Word) : (s.setcc v).hold = s.hold := rfl

/-! ### define -/

@[simp] theorem define_regs (r : Reg) (v : Word) : (s.define r v).regs = s.regs.set r v := rfl
@[simp] theorem define_pc (r : Reg) (v : Word) : (s.define r v).pc = s.pc := rfl
@[simp] theorem define_cc (r : Reg) (v : Word) : (s.define r v).cc = ccOf v := rfl
@[simp] theorem define_run (r : Reg) (v : Word) : (s.define r v).run = s.run := rfl
@[simp] theorem define_fault (r : Reg) (v : Word) : (s.define r v).fault = s.fault := rfl
@[simp] theorem define_mem (r : Reg) (v : Word) : (s.define r v).mem = s.mem := rfl
@[simp] theorem define_kbd (r : Reg) (v : Word) : (s.define r v).kbd = s.kbd := rfl
@[simp] theorem define_kbdClosed (r : Reg) (v : Word) : (s.define r v).kbdClosed = s.kbdClosed := rfl
@[simp] theorem define_out (r : Reg) (v : Word) : (s.define r v).out = s.out := rfl
@[simp] theorem define_outClosed (r : Reg) (v : Word) : (s.define r v).outClosed = s.outClosed := rfl
@[simp] theorem define_hold (r : Reg) (v : Word) : (s.define r v).hold = s.hold := rfl

/-! ### memWrite -/

@[simp] theorem memWrite_regs (a v : Word) : (s.memWrite a v).regs = s.regs := rfl
@[simp] theorem memWrite_pc (a v : Word) : (s.memWrite a v).pc = s.pc := rfl
@[simp] theorem memWrite_cc (a v : Word) : (s.memWrite a v).cc = s.cc := rfl
@[simp] theorem memWrite_run (a v : Word) : (s.memWrite a v).run = s.run := rfl
@[simp] theorem memWrite_fault (a v : Word) : (s.memWrite a v).fault = s.fault := rfl
@[simp] theorem memWrite_mem (a v : Word) : (s.memWrite a v).mem = s.mem.write a.toNat v := rfl
@[simp] theorem memWrite_kbd (a v : Word) : (s.memWrite a v).kbd = s.kbd := rfl
@[simp] theorem memWrite_kbdClosed (a v : Word) : (s.memWrite a v).kbdClosed = s.kbdClosed := rfl
@[simp] theorem memWrite_out (a v : Word) : (s.memWrite a v).out = s.out := rfl
@[simp] theorem memWrite_outClosed (a v : Word) : (s.memWrite a v).outClosed = s.outClosed := rfl
@[simp] theorem memWrite_hold (a v : Word) : (s.memWrite a v).hold = s.hold := rfl

/-! ### raise -/

@[simp] theorem raise_regs (c : Cause) (a : Word) (w : Option Word) : (s.raise c a w).regs = s.regs := rfl
@[simp] theorem raise_pc (c : Cause) (a : Word) (w : Option Word) : (s.raise c a w).pc = s.pc := rfl
@[simp] theorem raise_cc (c : Cause) (a : Word) (w : Option Word) : (s.raise c a w).cc = s.cc := rfl
@[simp] theorem raise_run (c : Cause) (a : Word) (w : Option Word) : (s.raise c a w).run = .faulted := rfl
@[simp] theorem raise_fault (c : Cause) (a : Word) (w : Option Word) : (s.raise c a w).fault = some ⟨c, a, w⟩ := rfl
@[simp] theorem raise_mem (c : Cause) (a : Word) (w : Option Word) : (s.raise c a w).mem = s.mem := rfl
@[simp] theorem raise_kbd (c : Cause) (a : Word) (w : Option Word) : (s.raise c a w).kbd = s.kbd := rfl
@[simp] theorem raise_kbdClosed (c : Cause) (a : Word) (w : Option Word) : (s.raise c a w).kbdClosed = s.kbdClosed := rfl
@[simp] theorem raise_out (c : Cause) (a : Word) (w : Option Word) : (s.raise c a w).out = s.out := rfl
@[simp] theorem raise_outClosed (c : Cause) (a : Word) (w : Option Word) : (s.raise c a w).outClosed = s.outClosed := rfl
@[simp] theorem raise_hold (c : Cause) (a : Word) (w : Option Word) : (s.raise c a w).hold = s.hold := rfl

/-! ### raiseAt -/

@[simp] theorem raiseAt_regs (c : Cause) (ir : Word) : (s.raiseAt c ir).regs = s.regs := rfl
@[simp] theorem raiseAt_pc (c : Cause) (ir : Word) : (s.raiseAt c ir).pc = s.pc := rfl
@[simp] theorem raiseAt_cc (c : Cause) (ir : Word) : (s.raiseAt c ir).cc = s.cc := rfl
@[simp] theorem raiseAt_run (c : Cause) (ir : Word) : (s.raiseAt c ir).run = .faulted := rfl
@[simp] theorem raiseAt_fault (c : Cause) (ir : Word) : (s.raiseAt c ir).fault = some ⟨c, s.ia, some ir⟩ := rfl
@[simp] theorem raiseAt_mem (c : Cause) (ir : Word) : (s.raiseAt c ir).mem = s.mem := rfl
@[simp] theorem raiseAt_kbd (c : Cause) (ir : Word) : (s.raiseAt c ir).kbd = s.kbd := rfl
@[simp] theorem raiseAt_kbdClosed (c : Cause) (ir : Word) : (s.raiseAt c ir).kbdClosed = s.kbdClosed := rfl
@[simp] theorem raiseAt_out (c : Cause) (ir : Word) : (s.raiseAt c ir).out = s.out := rfl
@[simp] theorem raiseAt_outClosed (c : Cause) (ir : Word) : (s.raiseAt c ir).outClosed = s.outClosed := rfl
@[simp] theorem raiseAt_hold (c : Cause) (ir : Word) : (s.raiseAt c ir).hold = s.hold := rfl

/-! ### halt -/

@[simp] theorem halt_regs : (s.halt).regs = s.regs := rfl
@[simp] theorem halt_pc : (s.halt).pc = s.pc := rfl
@[simp] theorem halt_cc : (s.halt).cc = s.cc := rfl
@[simp] theorem halt_run : (s.halt).run = .halted := rfl
@[simp] theorem halt_fault : (s.halt).fault = s.fault := rfl
@[simp] theorem halt_mem : (s.halt).mem = s.mem := rfl
@[simp] theorem halt_kbd : (s.halt).kbd = s.kbd := rfl
@[simp] theorem halt_kbdClosed : (s.halt).kbdClosed = s.kbdClosed := rfl
@[simp] theorem halt_out : (s.halt).out = s.out := rfl
@[simp] theorem halt_outClosed : (s.halt).outClosed = s.outClosed := rfl
@[simp] theorem halt_hold : (s.halt).hold = s.hold := rfl

/-! ### waitAt -/

@[simp] theorem waitAt_regs (ir : Word) (p : WaitPoint) : (s.waitAt ir p).regs = s.regs := rfl
@[simp] theorem waitAt_pc (ir : Word) (p : WaitPoint) : (s.waitAt ir p).pc = s.pc := rfl
@[simp] theorem waitAt_cc (ir : Word) (p : WaitPoint) : (s.waitAt ir p).cc = s.cc := rfl
@[simp] theorem waitAt_run (ir : Word) (p : WaitPoint) : (s.waitAt ir p).run = s.run := rfl
@[simp] theorem waitAt_fault (ir : Word) (p : WaitPoint) : (s.waitAt ir p).fault = s.fault := rfl
@[simp] theorem waitAt_mem (ir : Word) (p : WaitPoint) : (s.waitAt ir p).mem = s.mem := rfl
@[simp] theorem waitAt_kbd (ir : Word) (p : WaitPoint) : (s.waitAt ir p).kbd = s.kbd := rfl
@[simp] theorem waitAt_kbdClosed (ir : Word) (p : WaitPoint) : (s.waitAt ir p).kbdClosed = s.kbdClosed := rfl
@[simp] theorem waitAt_out (ir : Word) (p : WaitPoint) : (s.waitAt ir p).out = s.out := rfl
@[simp] theorem waitAt_outClosed (ir : Word) (p : WaitPoint) : (s.waitAt ir p).outClosed = s.outClosed := rfl
@[simp] theorem waitAt_hold (ir : Word) (p : WaitPoint) : (s.waitAt ir p).hold = some (.within ir p) := rfl

/-! ### link -/

@[simp] theorem link_regs : (s.link).regs = s.regs.set .r7 s.pc := rfl
@[simp] theorem link_pc : (s.link).pc = s.pc := rfl
@[simp] theorem link_cc : (s.link).cc = s.cc := rfl
@[simp] theorem link_run : (s.link).run = s.run := rfl
@[simp] theorem link_fault : (s.link).fault = s.fault := rfl
@[simp] theorem link_mem : (s.link).mem = s.mem := rfl
@[simp] theorem link_kbd : (s.link).kbd = s.kbd := rfl
@[simp] theorem link_kbdClosed : (s.link).kbdClosed = s.kbdClosed := rfl
@[simp] theorem link_out : (s.link).out = s.out := rfl
@[simp] theorem link_outClosed : (s.link).outClosed = s.outClosed := rfl
@[simp] theorem link_hold : (s.link).hold = s.hold := rfl

/-! ### trapLinked -/

@[simp] theorem trapLinked_regs : (s.trapLinked).regs = s.regs.set .r7 (trapLinkValue Config.trapLink s.pc (s.reg .r7)) := rfl
@[simp] theorem trapLinked_pc : (s.trapLinked).pc = s.pc := rfl
@[simp] theorem trapLinked_cc : (s.trapLinked).cc = s.cc := rfl
@[simp] theorem trapLinked_run : (s.trapLinked).run = s.run := rfl
@[simp] theorem trapLinked_fault : (s.trapLinked).fault = s.fault := rfl
@[simp] theorem trapLinked_mem : (s.trapLinked).mem = s.mem := rfl
@[simp] theorem trapLinked_kbd : (s.trapLinked).kbd = s.kbd := rfl
@[simp] theorem trapLinked_kbdClosed : (s.trapLinked).kbdClosed = s.kbdClosed := rfl
@[simp] theorem trapLinked_out : (s.trapLinked).out = s.out := rfl
@[simp] theorem trapLinked_outClosed : (s.trapLinked).outClosed = s.outClosed := rfl
@[simp] theorem trapLinked_hold : (s.trapLinked).hold = s.hold := rfl

/-! ### unhold -/

@[simp] theorem unhold_regs : (s.unhold).regs = s.regs := rfl
@[simp] theorem unhold_pc : (s.unhold).pc = s.pc := rfl
@[simp] theorem unhold_cc : (s.unhold).cc = s.cc := rfl
@[simp] theorem unhold_run : (s.unhold).run = s.run := rfl
@[simp] theorem unhold_fault : (s.unhold).fault = s.fault := rfl
@[simp] theorem unhold_mem : (s.unhold).mem = s.mem := rfl
@[simp] theorem unhold_kbd : (s.unhold).kbd = s.kbd := rfl
@[simp] theorem unhold_kbdClosed : (s.unhold).kbdClosed = s.kbdClosed := rfl
@[simp] theorem unhold_out : (s.unhold).out = s.out := rfl
@[simp] theorem unhold_outClosed : (s.unhold).outClosed = s.outClosed := rfl
@[simp] theorem unhold_hold : (s.unhold).hold = none := rfl

/-! ### waitInFetch -/

@[simp] theorem waitInFetch_regs : (s.waitInFetch).regs = s.regs := rfl
@[simp] theorem waitInFetch_pc : (s.waitInFetch).pc = s.pc := rfl
@[simp] theorem waitInFetch_cc : (s.waitInFetch).cc = s.cc := rfl
@[simp] theorem waitInFetch_run : (s.waitInFetch).run = s.run := rfl
@[simp] theorem waitInFetch_fault : (s.waitInFetch).fault = s.fault := rfl
@[simp] theorem waitInFetch_mem : (s.waitInFetch).mem = s.mem := rfl
@[simp] theorem waitInFetch_kbd : (s.waitInFetch).kbd = s.kbd := rfl
@[simp] theorem waitInFetch_kbdClosed : (s.waitInFetch).kbdClosed = s.kbdClosed := rfl
@[simp] theorem waitInFetch_out : (s.waitInFetch).out = s.out := rfl
@[simp] theorem waitInFetch_outClosed : (s.waitInFetch).outClosed = s.outClosed := rfl
@[simp] theorem waitInFetch_hold : (s.waitInFetch).hold = some .fetch := rfl

/-! ### failInFetch -/

@[simp] theorem failInFetch_regs : (s.failInFetch).regs = s.regs := rfl
@[simp] theorem failInFetch_pc : (s.failInFetch).pc = s.pc + 1#16 := rfl
@[simp] theorem failInFetch_cc : (s.failInFetch).cc = s.cc := rfl
@[simp] theorem failInFetch_run : (s.failInFetch).run = .faulted := rfl
@[simp] theorem failInFetch_fault : (s.failInFetch).fault = some ⟨.consoleIOFailure, s.pc, none⟩ := rfl
@[simp] theorem failInFetch_mem : (s.failInFetch).mem = s.mem := rfl
@[simp] theorem failInFetch_kbd : (s.failInFetch).kbd = s.kbd := rfl
@[simp] theorem failInFetch_kbdClosed : (s.failInFetch).kbdClosed = s.kbdClosed := rfl
@[simp] theorem failInFetch_out : (s.failInFetch).out = s.out := rfl
@[simp] theorem failInFetch_outClosed : (s.failInFetch).outClosed = s.outClosed := rfl
@[simp] theorem failInFetch_hold : (s.failInFetch).hold = s.hold := rfl

/-! ### raiseIllegal -/

@[simp] theorem raiseIllegal_regs (ir : Word) : (s.raiseIllegal ir).regs = s.regs := rfl
@[simp] theorem raiseIllegal_pc (ir : Word) : (s.raiseIllegal ir).pc = s.pc := rfl
@[simp] theorem raiseIllegal_cc (ir : Word) : (s.raiseIllegal ir).cc = s.cc := rfl
@[simp] theorem raiseIllegal_run (ir : Word) : (s.raiseIllegal ir).run = .faulted := rfl
@[simp] theorem raiseIllegal_fault (ir : Word) : (s.raiseIllegal ir).fault = some ⟨.illegalInstruction, s.ia, some ir⟩ := rfl
@[simp] theorem raiseIllegal_mem (ir : Word) : (s.raiseIllegal ir).mem = s.mem := rfl
@[simp] theorem raiseIllegal_kbd (ir : Word) : (s.raiseIllegal ir).kbd = s.kbd := rfl
@[simp] theorem raiseIllegal_kbdClosed (ir : Word) : (s.raiseIllegal ir).kbdClosed = s.kbdClosed := rfl
@[simp] theorem raiseIllegal_out (ir : Word) : (s.raiseIllegal ir).out = s.out := rfl
@[simp] theorem raiseIllegal_outClosed (ir : Word) : (s.raiseIllegal ir).outClosed = s.outClosed := rfl
@[simp] theorem raiseIllegal_hold (ir : Word) : (s.raiseIllegal ir).hold = s.hold := rfl

/-! ### setKbd -/

@[simp] theorem setKbd_regs (q : List Byte) : (s.setKbd q).regs = s.regs := rfl
@[simp] theorem setKbd_pc (q : List Byte) : (s.setKbd q).pc = s.pc := rfl
@[simp] theorem setKbd_cc (q : List Byte) : (s.setKbd q).cc = s.cc := rfl
@[simp] theorem setKbd_run (q : List Byte) : (s.setKbd q).run = s.run := rfl
@[simp] theorem setKbd_fault (q : List Byte) : (s.setKbd q).fault = s.fault := rfl
@[simp] theorem setKbd_mem (q : List Byte) : (s.setKbd q).mem = s.mem := rfl
@[simp] theorem setKbd_kbd (q : List Byte) : (s.setKbd q).kbd = q := rfl
@[simp] theorem setKbd_kbdClosed (q : List Byte) : (s.setKbd q).kbdClosed = s.kbdClosed := rfl
@[simp] theorem setKbd_out (q : List Byte) : (s.setKbd q).out = s.out := rfl
@[simp] theorem setKbd_outClosed (q : List Byte) : (s.setKbd q).outClosed = s.outClosed := rfl
@[simp] theorem setKbd_hold (q : List Byte) : (s.setKbd q).hold = s.hold := rfl

/-! ### wrote -/

@[simp] theorem wrote_regs (cs : List Byte) : (s.wrote cs).regs = s.regs := rfl
@[simp] theorem wrote_pc (cs : List Byte) : (s.wrote cs).pc = s.pc := rfl
@[simp] theorem wrote_cc (cs : List Byte) : (s.wrote cs).cc = s.cc := rfl
@[simp] theorem wrote_run (cs : List Byte) : (s.wrote cs).run = s.run := rfl
@[simp] theorem wrote_fault (cs : List Byte) : (s.wrote cs).fault = s.fault := rfl
@[simp] theorem wrote_mem (cs : List Byte) : (s.wrote cs).mem = s.mem := rfl
@[simp] theorem wrote_kbd (cs : List Byte) : (s.wrote cs).kbd = s.kbd := rfl
@[simp] theorem wrote_kbdClosed (cs : List Byte) : (s.wrote cs).kbdClosed = s.kbdClosed := rfl
@[simp] theorem wrote_out (cs : List Byte) : (s.wrote cs).out = s.out ++ cs := rfl
@[simp] theorem wrote_outClosed (cs : List Byte) : (s.wrote cs).outClosed = s.outClosed := rfl
@[simp] theorem wrote_hold (cs : List Byte) : (s.wrote cs).hold = s.hold := rfl

end Sys2Proof.Machine
end

