-- ==== Sys2Proof/Laws/Memory.lean ====
section
/-! SUPPORT. Cells: the canonical form and the two laws of reading after writing (20_memory.md R31, R35). -/

namespace Sys2Proof.Machine

theorem Memory.wfFrom_cons (lo a : Nat) (v : Word) (m : Memory) :
    Memory.wfFrom lo ((a, v) :: m) = true ↔ lo ≤ a ∧ a < 65536 ∧ v ≠ 0#16 ∧ Memory.wfFrom (a + 1) m = true := by
  simp [Memory.wfFrom, and_assoc]

/-- The form from a higher address on is the form from a lower one on. -/
theorem Memory.wfFrom_mono {lo lo' : Nat} (h : lo' ≤ lo) {m : Memory} (hm : Memory.wfFrom lo m = true) :
    Memory.wfFrom lo' m = true := by
  cases m with
  | nil => rfl
  | cons c rest =>
    obtain ⟨a, v⟩ := c
    rw [Memory.wfFrom_cons] at hm ⊢
    exact ⟨by omega, hm.2⟩

/-- Nothing is listed below the first address. -/
theorem Memory.read_below {lo a : Nat} {m : Memory} (hm : Memory.wfFrom lo m = true) (h : a < lo) :
    Memory.read m a = 0#16 := by
  induction m generalizing lo with
  | nil => rfl
  | cons c rest ih =>
    obtain ⟨b, v⟩ := c
    rw [Memory.wfFrom_cons] at hm
    have hb : b ≠ a := by omega
    simp only [Memory.read, hb, if_false]
    exact ih hm.2.2.2 (by omega)

theorem Memory.wfFrom_write {lo a : Nat} (v : Word) {m : Memory} (hm : Memory.wfFrom lo m = true) (hlo : lo ≤ a)
    (ha : a < 65536) : Memory.wfFrom lo (Memory.write m a v) = true := by
  induction m generalizing lo with
  | nil =>
    by_cases hv : v = 0#16
    · simp [Memory.write, hv, Memory.wfFrom]
    · simp [Memory.write, hv, Memory.wfFrom, hlo, ha]
  | cons c rest ih =>
    obtain ⟨b, w⟩ := c
    have hm' := (Memory.wfFrom_cons ..).1 hm
    unfold Memory.write
    split
    · split
      · exact hm
      · rename_i hv
        simp only [Memory.wfFrom_cons]
        exact ⟨hlo, ha, hv, by omega, hm'.2⟩
    · split
      · rename_i hab
        subst hab
        split
        · exact Memory.wfFrom_mono (by omega) hm'.2.2.2
        · rename_i hv
          rw [Memory.wfFrom_cons]
          exact ⟨hlo, ha, hv, hm'.2.2.2⟩
      · rw [Memory.wfFrom_cons]
        exact ⟨hm'.1, hm'.2.1, hm'.2.2.1, ih hm'.2.2.2 (by omega)⟩

/-- A write keeps the canonical form. -/
theorem Memory.wf_write {m : Memory} (hm : m.wf = true) {a : Nat} (ha : a < 65536) (v : Word) :
    (m.write a v).wf = true := Memory.wfFrom_write v hm (Nat.zero_le a) ha

theorem Memory.read_write_same_from {lo : Nat} {m : Memory} (hm : Memory.wfFrom lo m = true) (a : Nat) (v : Word) :
    Memory.read (Memory.write m a v) a = v := by
  induction m generalizing lo with
  | nil =>
    by_cases hv : v = 0#16 <;> simp [Memory.write, Memory.read, hv]
  | cons c rest ih =>
    obtain ⟨b, w⟩ := c
    have hm' := (Memory.wfFrom_cons ..).1 hm
    unfold Memory.write
    split
    · split
      · rename_i hlt hv
        subst hv
        exact Memory.read_below (m := (b, w) :: rest) (lo := b) ((Memory.wfFrom_cons ..).2 ⟨Nat.le_refl b, hm'.2⟩) hlt
      · simp [Memory.read]
    · split
      · rename_i hab
        subst hab
        split
        · rename_i hv
          subst hv
          exact Memory.read_below hm'.2.2.2 (Nat.lt_succ_self a)
        · simp [Memory.read]
      · rename_i hab
        have hba : ¬ b = a := fun h => hab h.symm
        simp only [Memory.read, hba, if_false]
        exact ih hm'.2.2.2

/-- A read gives what was last written there. -/
theorem Memory.read_write_same {m : Memory} (hm : m.wf = true) (a : Nat) (v : Word) : (m.write a v).read a = v :=
  Memory.read_write_same_from hm a v

/-- A write leaves every other cell alone. -/
theorem Memory.read_write_other (m : Memory) {a b : Nat} (v : Word) (h : b ≠ a) : (m.write a v).read b = m.read b := by
  have hab : ¬ a = b := fun e => h e.symm
  induction m with
  | nil => by_cases hv : v = 0#16 <;> simp [Memory.write, Memory.read, hv, hab]
  | cons c rest ih =>
    obtain ⟨d, w⟩ := c
    unfold Memory.write
    split
    · split
      · rfl
      · simp [Memory.read, hab]
    · split
      · rename_i had
        subst had
        split <;> simp [Memory.read, hab]
      · by_cases hd : d = b <;> simp [Memory.read, hd, ih]

/-! ### The same for the cells of a state -/

theorem cell_memWrite_same (s : State) (hm : s.mem.wf = true) (a v : Word) : (s.memWrite a v).cell a = v :=
  Memory.read_write_same hm _ _

theorem cell_memWrite_other (s : State) {a b : Word} (v : Word) (h : b ≠ a) : (s.memWrite a v).cell b = s.cell b :=
  Memory.read_write_other _ _ fun e => h (BitVec.eq_of_toNat_eq e)

theorem memWrite_wf (s : State) (hm : s.mem.wf = true) (a v : Word) : (s.memWrite a v).mem.wf = true :=
  Memory.wf_write hm a.isLt v

/-- A state whose memory is the same list has the same cells. -/
theorem cell_congr {s t : State} (h : t.mem = s.mem) (a : Word) : t.cell a = s.cell a := by simp [State.cell, h]

theorem reset_mem_wf : State.reset.mem.wf = true := rfl

end Sys2Proof.Machine
end

