-- ==== Sys2Proof/Laws/Regs.lean ====
section
/-! SUPPORT. Register numbers and the register file: what a write does to every later read (10_state.md R10, R11). -/

namespace Sys2Proof

@[simp] theorem Reg.ofBits_bits (r : Reg) : Reg.ofBits r.bits = r := by cases r <;> rfl

theorem Reg.bits_ofBits : ∀ b : BitVec 3, (Reg.ofBits b).bits = b := by decide

@[simp] theorem Opcode.ofBits_bits (o : Opcode) : Opcode.ofBits o.bits = o := by cases o <;> rfl

theorem Opcode.bits_ofBits : ∀ b : BitVec 4, (Opcode.ofBits b).bits = b := by decide

namespace Machine

theorem Regs.get_set (rf : Regs) (r q : Reg) (v : Word) : (rf.set r v).get q = if q = r then v else rf.get q := by
  cases r <;> cases q <;> rfl

theorem Regs.set_get (rf : Regs) (r : Reg) : rf.set r (rf.get r) = rf := by cases r <;> rfl

/-- Registers that all read the same are the same. -/
theorem Regs.ext_get {rf rf' : Regs} (h : ∀ r, rf.get r = rf'.get r) : rf = rf' := by
  obtain ⟨a0, a1, a2, a3, a4, a5, a6, a7⟩ := rf
  obtain ⟨b0, b1, b2, b3, b4, b5, b6, b7⟩ := rf'
  simp only [Regs.mk.injEq]
  exact ⟨h .r0, h .r1, h .r2, h .r3, h .r4, h .r5, h .r6, h .r7⟩

theorem reg_setReg (s : State) (r q : Reg) (v : Word) : (s.setReg r v).reg q = if q = r then v else s.reg q :=
  Regs.get_set s.regs r q v

@[simp] theorem reg_setReg_same (s : State) (r : Reg) (v : Word) : (s.setReg r v).reg r = v := by simp [reg_setReg]

theorem reg_setReg_other (s : State) {r q : Reg} (v : Word) (h : q ≠ r) : (s.setReg r v).reg q = s.reg q := by
  simp [reg_setReg, h]

theorem reg_define (s : State) (r q : Reg) (v : Word) : (s.define r v).reg q = if q = r then v else s.reg q :=
  Regs.get_set s.regs r q v

@[simp] theorem reg_define_same (s : State) (r : Reg) (v : Word) : (s.define r v).reg r = v := by simp [reg_define]

theorem reg_link (s : State) (q : Reg) : s.link.reg q = if q = .r7 then s.pc else s.reg q := reg_setReg s .r7 q s.pc

theorem reg_trapLinked (s : State) (q : Reg) :
    s.trapLinked.reg q = if q = .r7 then trapLinkValue Config.trapLink s.pc (s.reg .r7) else s.reg q :=
  reg_setReg s .r7 q _

/-- With `TRAP_LINK = none` the link changes nothing (45_trap.md R120). -/
theorem trapLinkValue_none (pc r7 : Word) : trapLinkValue .none pc r7 = r7 := rfl

theorem trapLinkValue_r7GetsPc (pc r7 : Word) : trapLinkValue .r7GetsPc pc r7 = pc := rfl

@[simp] theorem reg_setPc (s : State) (v : Word) (q : Reg) : (s.setPc v).reg q = s.reg q := rfl
@[simp] theorem reg_setcc (s : State) (v : Word) (q : Reg) : (s.setcc v).reg q = s.reg q := rfl
@[simp] theorem reg_memWrite (s : State) (a v : Word) (q : Reg) : (s.memWrite a v).reg q = s.reg q := rfl
@[simp] theorem reg_raiseAt (s : State) (c : Cause) (ir : Word) (q : Reg) : (s.raiseAt c ir).reg q = s.reg q := rfl
@[simp] theorem reg_waitAt (s : State) (ir : Word) (p : WaitPoint) (q : Reg) : (s.waitAt ir p).reg q = s.reg q := rfl
@[simp] theorem reg_halt (s : State) (q : Reg) : s.halt.reg q = s.reg q := rfl
@[simp] theorem reg_unhold (s : State) (q : Reg) : s.unhold.reg q = s.reg q := rfl

end Machine

end Sys2Proof
end

