-- ==== Sys2Proof/Laws/Ops.lean ====
section
/-! SUPPORT. The shared operations, each said once: reads through the device decoder, the console primitives, and the two
ways an instruction's own work can leave the processor (20_memory.md R34, R40 to R42; 40_fetch_execute.md R74, R75). -/

namespace Sys2Proof.Machine

/-! ### Addresses, flags and bytes -/

@[simp] theorem kbsrAddr_ne_kbdrAddr : Config.kbsrAddr ≠ Config.kbdrAddr := by decide

@[simp] theorem kbdrAddr_ne_kbsrAddr : Config.kbdrAddr ≠ Config.kbsrAddr := by decide

theorem ccOf_eq_n {v : Word} : ccOf v = .n ↔ v.getLsbD 15 = true := by
  unfold ccOf; split
  · simp_all
  · split <;> simp_all

theorem ccOf_zero : ccOf 0x0000#16 = .z := rfl

theorem kbsrValue_ready (low : BitVec 15) (ready : Bool) : (kbsrValue low ready).getLsbD 15 = ready := by
  show (BitVec.ofBool ready ++ low : BitVec (1 + 15)).getLsbD 15 = ready
  rw [BitVec.getLsbD_append]
  simp

/-- The status value as 20_memory.md R34 writes it. -/
theorem kbsrValue_eq_add (low : BitVec 15) (ready : Bool) :
    kbsrValue low ready = (if ready then 0x8000#16 else 0x0000#16) + low.setWidth 16 := by
  have hl := low.isLt
  apply BitVec.eq_of_toNat_eq
  show (BitVec.ofBool ready ++ low : BitVec (1 + 15)).toNat = _
  rw [BitVec.toNat_append, Nat.shiftLeft_eq, Nat.mul_comm, ← Nat.two_pow_add_eq_or_of_lt hl]
  cases ready <;> simp <;> omega

/-- A character zero-extended has a zero high byte (00_scope.md R27). -/
theorem highByte_zext16 (c : Byte) : highByte (zext16 c) = 0x00#8 := by
  apply BitVec.eq_of_getLsbD_eq
  intro i hi
  simp [highByte, zext16]

theorem lowByte_zext16 (c : Byte) : lowByte (zext16 c) = c := by
  apply BitVec.eq_of_getLsbD_eq
  intro i hi
  have : i < 16 := by omega
  simp [lowByte, zext16, this]
  omega

/-! ### After a read -/

section
variable (a : Word) (s : State)
@[simp] theorem afterRead_regs : (afterRead a s).regs = s.regs := rfl
@[simp] theorem afterRead_pc : (afterRead a s).pc = s.pc := rfl
@[simp] theorem afterRead_cc : (afterRead a s).cc = s.cc := rfl
@[simp] theorem afterRead_run : (afterRead a s).run = s.run := rfl
@[simp] theorem afterRead_fault : (afterRead a s).fault = s.fault := rfl
@[simp] theorem afterRead_mem : (afterRead a s).mem = s.mem := rfl
@[simp] theorem afterRead_kbd : (afterRead a s).kbd = kbdAfterRead a s := rfl
@[simp] theorem afterRead_kbdClosed : (afterRead a s).kbdClosed = s.kbdClosed := rfl
@[simp] theorem afterRead_out : (afterRead a s).out = s.out := rfl
@[simp] theorem afterRead_outClosed : (afterRead a s).outClosed = s.outClosed := rfl
@[simp] theorem afterRead_hold : (afterRead a s).hold = s.hold := rfl
@[simp] theorem afterRead_reg (r : Reg) : (afterRead a s).reg r = s.reg r := rfl
@[simp] theorem afterRead_ia : (afterRead a s).ia = s.ia := rfl
end

/-- Away from the keyboard-data address a read changes nothing (20_memory.md R39). -/
theorem afterRead_eq_self {a : Word} (h : a ≠ Config.kbdrAddr) (s : State) : afterRead a s = s := by
  simp [afterRead, kbdAfterRead, State.setKbd, h]

theorem isPlain_iff {a : Word} : isPlain a = true ↔ a ≠ Config.kbsrAddr ∧ a ≠ Config.kbdrAddr := by simp [isPlain]

theorem readValue_plain {a : Word} (h : isPlain a = true) (s : State) : readValue a s = s.cell a := by
  rw [isPlain_iff] at h
  simp [readValue, h.1, h.2]

/-- A read that is ready completes with the spec's value (20_memory.md R34). -/
theorem memRead_ready {a : Word} {s : State} (h : ReadReady a s) :
    memRead a s = .done (readValue a s) (afterRead a s) := by
  unfold memRead
  by_cases h1 : a = Config.kbsrAddr
  · subst h1
    simp [readValue, afterRead_eq_self]
  · by_cases h2 : a = Config.kbdrAddr
    · have hk := h h2
      subst h2
      obtain ⟨c, rest, hs⟩ := List.exists_cons_of_ne_nil hk
      simp [consoleRead, readValue, afterRead, kbdAfterRead, hs]
    · simp [readValue, afterRead_eq_self, h1, h2]

theorem not_readReady_iff {a : Word} {s : State} : ¬ ReadReady a s ↔ a = Config.kbdrAddr ∧ s.kbd = [] := by
  simp [ReadReady]

/-- A read that is not ready waits, or fails once the keyboard is closed (20_memory.md R41). -/
theorem memRead_notReady {a : Word} {s : State} (h : ¬ ReadReady a s) :
    memRead a s = if s.kbdClosed then .fail else .wait := by
  obtain ⟨rfl, hk⟩ := not_readReady_iff.1 h
  unfold memRead
  by_cases hc : s.kbdClosed = true <;> simp [consoleRead, hk, hc]

/-- A read at a plain address (20_memory.md R31). -/
theorem memRead_plain {a : Word} (h : isPlain a = true) (s : State) : memRead a s = .done (s.cell a) s := by
  have hp := isPlain_iff.1 h
  simp [memRead, hp.1, hp.2]

/-- What a read can do, in one place. -/
theorem memRead_cases (a : Word) (s : State) :
    (ReadReady a s ∧ memRead a s = .done (readValue a s) (afterRead a s)) ∨
    (a = Config.kbdrAddr ∧ s.kbd = [] ∧ s.kbdClosed = false ∧ memRead a s = .wait) ∨
    (a = Config.kbdrAddr ∧ s.kbd = [] ∧ s.kbdClosed = true ∧ memRead a s = .fail) := by
  by_cases h : ReadReady a s
  · exact .inl ⟨h, memRead_ready h⟩
  · obtain ⟨ha, hk⟩ := not_readReady_iff.1 h
    have hr := memRead_notReady h
    by_cases hc : s.kbdClosed = true
    · exact .inr (.inr ⟨ha, hk, hc, by simpa [hc] using hr⟩)
    · exact .inr (.inl ⟨ha, hk, by simpa using hc, by simpa [hc] using hr⟩)

/-! ### Console primitives -/

theorem consoleRead_cons {s : State} {c : Byte} {rest : List Byte} (h : s.kbd = c :: rest) :
    consoleRead s = .done c (s.setKbd rest) := by simp [consoleRead, h]

theorem consoleRead_empty_open {s : State} (h : s.kbd = []) (hc : s.kbdClosed = false) : consoleRead s = .wait := by
  simp [consoleRead, h, hc]

theorem consoleRead_empty_closed {s : State} (h : s.kbd = []) (hc : s.kbdClosed = true) : consoleRead s = .fail := by
  simp [consoleRead, h, hc]

theorem consoleWrite_open {s : State} (h : s.outClosed = false) (c : Byte) :
    consoleWrite c s = some (s.wrote [c]) := by simp [consoleWrite, h]

theorem consoleWrite_closed {s : State} (h : s.outClosed = true) (c : Byte) : consoleWrite c s = none := by
  simp [consoleWrite, h]

theorem consoleWriteAll_open {s : State} (h : s.outClosed = false) (cs : List Byte) :
    consoleWriteAll cs s = some (s.wrote cs) := by simp [consoleWriteAll, h]

/-- Writing characters one by one, in order (45_trap.md R125: "for each b in IN_PROMPT, in order: ConsoleWrite(b)"). -/
def writeEach : List Byte → State → Option State
  | [], s => some s
  | c :: cs, s => (consoleWrite c s).bind (writeEach cs)

theorem consoleWriteAll_eq_writeEach (cs : List Byte) (s : State) : consoleWriteAll cs s = writeEach cs s := by
  induction cs generalizing s with
  | nil => simp [consoleWriteAll, writeEach, State.wrote]
  | cons c cs ih =>
    by_cases h : s.outClosed = true
    · simp [consoleWriteAll, writeEach, consoleWrite, h]
    · simp only [Bool.not_eq_true] at h
      rw [writeEach, consoleWrite_open h, Option.bind_some, ← ih]
      simp [consoleWriteAll, h, State.wrote]

/-! ### Going on after a read or a write -/

section
variable {α : Type} (s t : State) (v : α) (ir : Word) (p : WaitPoint) (go : α → State → State) (go' : State → State)
@[simp] theorem andThen_done : (ReadResult.done v t).andThen s ir p go = go v t := rfl
@[simp] theorem andThen_wait : (ReadResult.wait : ReadResult α).andThen s ir p go = s.waitAt ir p := rfl
@[simp] theorem andThen_fail :
    (ReadResult.fail : ReadResult α).andThen s ir p go = s.raiseAt .consoleIOFailure ir := rfl
@[simp] theorem andThenWritten_some : andThenWritten (some t) s ir go' = go' t := rfl
@[simp] theorem andThenWritten_none : andThenWritten none s ir go' = s.raiseAt .consoleIOFailure ir := rfl
end

/-! ### How an instruction's work on the console ends -/

/-- What an instruction that reads or writes the console can leave: it finished; it waits at a point of its own; or it took
a console failure. `P` says which wait points are its own. -/
inductive Ends (ir : Word) (P : WaitPoint → Prop) (s t : State) : Prop where
  | finished (h : SameControl s t)
  | waits (p : WaitPoint) (own : P p) (atKbd : p.atKeyboard) (run : t.run = s.run) (fault : t.fault = s.fault)
      (hold : t.hold = some (.within ir p)) (empty : t.kbd = []) (opened : t.kbdClosed = false)
  | failed (run : t.run = .faulted) (fault : t.fault = some ⟨.consoleIOFailure, s.ia, some ir⟩) (hold : t.hold = s.hold)

/-- The console fields only move forward: input is taken from the head, output is appended, and the host's two flags stay. -/
structure ConsoleForward (s t : State) : Prop where
  taken : ∃ k, s.kbd = k ++ t.kbd
  written : ∃ o, t.out = s.out ++ o
  kbdClosed : t.kbdClosed = s.kbdClosed
  outClosed : t.outClosed = s.outClosed

theorem ConsoleForward.of_same {s t : State} (h : SameConsole s t) : ConsoleForward s t :=
  ⟨⟨[], by simp [h.1]⟩, ⟨[], by simp [h.2.2.1]⟩, h.2.1, h.2.2.2⟩

theorem ConsoleForward.refl (s : State) : ConsoleForward s s := .of_same ⟨rfl, rfl, rfl, rfl⟩

theorem ConsoleForward.trans {s t u : State} (h : ConsoleForward s t) (h' : ConsoleForward t u) : ConsoleForward s u := by
  obtain ⟨⟨k, hk⟩, ⟨o, ho⟩, hc, hd⟩ := h
  obtain ⟨⟨k', hk'⟩, ⟨o', ho'⟩, hc', hd'⟩ := h'
  exact ⟨⟨k ++ k', by simp [hk, hk']⟩, ⟨o ++ o', by simp [ho, ho']⟩, hc'.trans hc, hd'.trans hd⟩

theorem consoleForward_afterRead (a : Word) (s : State) : ConsoleForward s (afterRead a s) := by
  refine ⟨?_, ⟨[], by simp⟩, rfl, rfl⟩
  by_cases h : a = Config.kbdrAddr
  · cases hk : s.kbd with
    | nil => exact ⟨[], by simp [kbdAfterRead, hk]⟩
    | cons c rest => exact ⟨[c], by simp [kbdAfterRead, hk, h]⟩
  · exact ⟨[], by simp [kbdAfterRead, h]⟩

end Sys2Proof.Machine
end

