-- ==== Sys2Proof/Laws/Console.lean ====
section
/-! SUPPORT. What the pieces of instructions that use the console can do, each said once: what they leave alone, how they
end, and that a walk over a string is never cut short (45_trap.md; 40_fetch_execute.md R74, R75; assumption log 18). -/

namespace Sys2Proof.Machine

/-! ### Three ways on from a read, two from a write -/

/-- A property of what follows a read, from its three cases. -/
theorem memRead_elim {motive : State → Prop} {a : Word} {s : State} {ir : Word} {p : WaitPoint}
    {go : Word → State → State}
    (ready : ReadReady a s → motive (go (readValue a s) (afterRead a s)))
    (wait : a = Config.kbdrAddr → s.kbd = [] → s.kbdClosed = false → motive (s.waitAt ir p))
    (fail : a = Config.kbdrAddr → s.kbd = [] → s.kbdClosed = true → motive (s.raiseAt .consoleIOFailure ir)) :
    motive ((memRead a s).andThen s ir p go) := by
  obtain ⟨h, e⟩ | ⟨ha, hk, hc, e⟩ | ⟨ha, hk, hc, e⟩ := memRead_cases a s
  · rw [e]; exact ready h
  · rw [e]; exact wait ha hk hc
  · rw [e]; exact fail ha hk hc

/-- A property of what follows `ConsoleRead()`, from its three cases (20_memory.md R41). -/
theorem consoleRead_elim {motive : State → Prop} {s : State} {ir : Word} {p : WaitPoint} {go : Byte → State → State}
    (ready : ∀ c rest, s.kbd = c :: rest → motive (go c (s.setKbd rest)))
    (wait : s.kbd = [] → s.kbdClosed = false → motive (s.waitAt ir p))
    (fail : s.kbd = [] → s.kbdClosed = true → motive (s.raiseAt .consoleIOFailure ir)) :
    motive ((consoleRead s).andThen s ir p go) := by
  cases hk : s.kbd with
  | cons c rest => rw [consoleRead_cons hk]; exact ready c rest hk
  | nil =>
    by_cases hc : s.kbdClosed = true
    · rw [consoleRead_empty_closed hk hc]; exact fail hk hc
    · simp only [Bool.not_eq_true] at hc
      rw [consoleRead_empty_open hk hc]; exact wait hk hc

/-- A property of what follows `ConsoleWrite(c)`, from its two cases (20_memory.md R42). -/
theorem consoleWrite_elim {motive : State → Prop} {c : Byte} {s : State} {ir : Word} {go : State → State}
    (opened : s.outClosed = false → motive (go (s.wrote [c])))
    (closed : s.outClosed = true → motive (s.raiseAt .consoleIOFailure ir)) :
    motive (andThenWritten (consoleWrite c s) s ir go) := by
  by_cases h : s.outClosed = true
  · rw [consoleWrite_closed h]; exact closed h
  · simp only [Bool.not_eq_true] at h
    rw [consoleWrite_open h]; exact opened h

/-- A property of what follows several writes, from its two cases. -/
theorem consoleWriteAll_elim {motive : State → Prop} {cs : List Byte} {s : State} {ir : Word} {go : State → State}
    (written : motive (go (s.wrote cs)))
    (closed : s.outClosed = true → motive (s.raiseAt .consoleIOFailure ir)) :
    motive (andThenWritten (consoleWriteAll cs s) s ir go) := by
  unfold consoleWriteAll
  split
  · rename_i h
    simp only [Bool.and_eq_true] at h
    exact closed h.1
  · exact written

/-! ### What is left alone -/

/-- `t` is `s` but for the console, the controller and the registers in `rs`. -/
structure ConsoleOnly (rs : List Reg) (s t : State) : Prop where
  regs : SameRegsBut rs s t
  pc : t.pc = s.pc
  cc : t.cc = s.cc
  mem : t.mem = s.mem
  console : ConsoleForward s t

theorem ConsoleOnly.refl (rs : List Reg) (s : State) : ConsoleOnly rs s s :=
  ⟨fun _ _ => rfl, rfl, rfl, rfl, .refl s⟩

theorem ConsoleOnly.trans {rs : List Reg} {s t u : State} (h : ConsoleOnly rs s t) (h' : ConsoleOnly rs t u) :
    ConsoleOnly rs s u :=
  ⟨fun r hr => (h'.regs r hr).trans (h.regs r hr), h'.pc.trans h.pc, h'.cc.trans h.cc, h'.mem.trans h.mem,
    h.console.trans h'.console⟩

theorem ConsoleOnly.mono {rs rs' : List Reg} {s t : State} (hs : ∀ r, r ∈ rs → r ∈ rs') (h : ConsoleOnly rs s t) :
    ConsoleOnly rs' s t :=
  ⟨fun r hr => h.regs r fun hr' => hr (hs r hr'), h.pc, h.cc, h.mem, h.console⟩

theorem consoleOnly_raiseAt (s : State) (c : Cause) (ir : Word) : ConsoleOnly [] s (s.raiseAt c ir) :=
  ⟨fun _ _ => rfl, rfl, rfl, rfl, .of_same ⟨rfl, rfl, rfl, rfl⟩⟩

theorem consoleOnly_waitAt (s : State) (ir : Word) (p : WaitPoint) : ConsoleOnly [] s (s.waitAt ir p) :=
  ⟨fun _ _ => rfl, rfl, rfl, rfl, .of_same ⟨rfl, rfl, rfl, rfl⟩⟩

theorem consoleOnly_halt (s : State) : ConsoleOnly [] s s.halt :=
  ⟨fun _ _ => rfl, rfl, rfl, rfl, .of_same ⟨rfl, rfl, rfl, rfl⟩⟩

theorem consoleOnly_afterRead (a : Word) (s : State) : ConsoleOnly [] s (afterRead a s) :=
  ⟨fun _ _ => rfl, rfl, rfl, rfl, consoleForward_afterRead a s⟩

theorem consoleOnly_taken {s : State} {c : Byte} {rest : List Byte} (h : s.kbd = c :: rest) :
    ConsoleOnly [] s (s.setKbd rest) :=
  ⟨fun _ _ => rfl, rfl, rfl, rfl, ⟨⟨[c], by simp [h]⟩, ⟨[], by simp⟩, rfl, rfl⟩⟩

theorem consoleOnly_written (s : State) (cs : List Byte) : ConsoleOnly [] s (s.wrote cs) :=
  ⟨fun _ _ => rfl, rfl, rfl, rfl, ⟨⟨[], by simp⟩, ⟨cs, rfl⟩, rfl, rfl⟩⟩

theorem consoleOnly_setReg (s : State) (r : Reg) (v : Word) : ConsoleOnly [r] s (s.setReg r v) :=
  ⟨fun q hq => reg_setReg_other s v fun e => hq (by simp [e]), rfl, rfl, rfl, .of_same ⟨rfl, rfl, rfl, rfl⟩⟩

theorem ConsoleOnly.any {rs : List Reg} {s t : State} (h : ConsoleOnly [] s t) : ConsoleOnly rs s t :=
  h.mono fun r hr => by simp at hr

theorem getcRoutine_only (ir : Word) (s : State) : ConsoleOnly [.r0] s (getcRoutine ir s) := by
  unfold getcRoutine
  refine consoleRead_elim (fun c rest hk => ?_) (fun _ _ => (consoleOnly_waitAt ..).any)
    (fun _ _ => (consoleOnly_raiseAt ..).any)
  exact (consoleOnly_taken hk).any.trans (consoleOnly_setReg ..)

theorem outRoutine_only (ir : Word) (s : State) : ConsoleOnly [] s (outRoutine ir s) := by
  unfold outRoutine
  exact consoleWrite_elim (fun _ => consoleOnly_written ..) (fun _ => consoleOnly_raiseAt ..)

theorem putsWalk_only (ir : Word) (n : Nat) (a : Word) (s : State) : ConsoleOnly [] s (putsWalk ir n a s) := by
  induction n generalizing a s with
  | zero => exact consoleOnly_waitAt ..
  | succ n ih =>
    unfold putsWalk
    refine memRead_elim (fun _ => ?_) (fun _ _ _ => consoleOnly_waitAt ..) (fun _ _ _ => consoleOnly_raiseAt ..)
    refine (consoleOnly_afterRead a s).trans ?_
    split
    · exact .refl ..
    · exact consoleWrite_elim (fun _ => (consoleOnly_written ..).trans (ih ..)) (fun _ => consoleOnly_raiseAt ..)

theorem putspWalk_only (ir : Word) (n : Nat) (a : Word) (s : State) : ConsoleOnly [] s (putspWalk ir n a s) := by
  induction n generalizing a s with
  | zero => exact consoleOnly_waitAt ..
  | succ n ih =>
    unfold putspWalk
    refine memRead_elim (fun _ => ?_) (fun _ _ _ => consoleOnly_waitAt ..) (fun _ _ _ => consoleOnly_raiseAt ..)
    refine (consoleOnly_afterRead a s).trans ?_
    split
    · exact .refl ..
    · refine consoleWrite_elim (fun _ => (consoleOnly_written _ [lowByte (readValue a s)]).trans ?_)
        (fun _ => consoleOnly_raiseAt ..)
      split
      · exact .refl ..
      · exact consoleWrite_elim (fun _ => (consoleOnly_written ..).trans (ih ..)) (fun _ => consoleOnly_raiseAt ..)

theorem putsRoutine_only (ir : Word) (s : State) : ConsoleOnly [] s (putsRoutine ir s) := putsWalk_only ..

theorem putspRoutine_only (ir : Word) (s : State) : ConsoleOnly [] s (putspRoutine ir s) := putspWalk_only ..

theorem inpRead_only (ir : Word) (s : State) : ConsoleOnly [.r0] s (inpRead ir s) := by
  unfold inpRead
  refine consoleRead_elim (fun c rest hk => ?_) (fun _ _ => (consoleOnly_waitAt ..).any)
    (fun _ _ => (consoleOnly_raiseAt ..).any)
  refine (consoleOnly_taken hk).any.trans ?_
  exact consoleWrite_elim (fun _ => (consoleOnly_written ..).any.trans (consoleOnly_setReg ..))
    (fun _ => (consoleOnly_raiseAt ..).any)

theorem inpRoutine_only (ir : Word) (s : State) : ConsoleOnly [.r0] s (inpRoutine ir s) := by
  unfold inpRoutine
  exact consoleWriteAll_elim ((consoleOnly_written ..).any.trans (inpRead_only ..))
    (fun _ => (consoleOnly_raiseAt ..).any)

theorem haltRoutine_only (ir : Word) (s : State) : ConsoleOnly [] s (haltRoutine ir s) := by
  unfold haltRoutine
  exact consoleWriteAll_elim ((consoleOnly_written ..).trans (consoleOnly_halt ..)) (fun _ => consoleOnly_raiseAt ..)

/-! ### How they end -/

theorem Ends.after {ir : Word} {P : WaitPoint → Prop} {s t u : State} (hc : SameControl s t) (hpc : t.pc = s.pc)
    (h : Ends ir P t u) : Ends ir P s u := by
  obtain ⟨hr, hf, hh⟩ := hc
  cases h with
  | finished h => exact .finished ⟨h.1.trans hr, h.2.1.trans hf, h.2.2.trans hh⟩
  | waits p own atKbd run fault hold empty opened =>
    exact .waits p own atKbd (run.trans hr) (fault.trans hf) hold empty opened
  | failed run fault hold => exact .failed run (by rw [fault, State.ia, State.ia, hpc]) (hold.trans hh)

theorem Ends.afterWrote {ir : Word} {P : WaitPoint → Prop} {s u : State} {cs : List Byte}
    (h : Ends ir P (s.wrote cs) u) : Ends ir P s u := Ends.after (t := s.wrote cs) ⟨rfl, rfl, rfl⟩ rfl h

theorem Ends.mono {ir : Word} {P Q : WaitPoint → Prop} {s t : State} (hpq : ∀ p, P p → Q p) (h : Ends ir P s t) :
    Ends ir Q s t := by
  cases h with
  | finished h => exact .finished h
  | waits p own atKbd run fault hold empty opened => exact .waits p (hpq p own) atKbd run fault hold empty opened
  | failed run fault hold => exact .failed run fault hold

theorem ends_raiseAt (ir : Word) (P : WaitPoint → Prop) (s : State) :
    Ends ir P s (s.raiseAt .consoleIOFailure ir) := .failed rfl rfl rfl

theorem ends_waitAt {ir : Word} {P : WaitPoint → Prop} {s : State} {p : WaitPoint} (own : P p) (atKbd : p.atKeyboard)
    (empty : s.kbd = []) (opened : s.kbdClosed = false) : Ends ir P s (s.waitAt ir p) :=
  .waits p own atKbd rfl rfl rfl empty opened

theorem sameControl_afterRead (a : Word) (s : State) : SameControl s (afterRead a s) := ⟨rfl, rfl, rfl⟩

theorem loadInto_ends (ir : Word) (dr : Reg) (a : Word) (s : State) :
    Ends ir (· = .load dr a) s (loadInto ir dr a s) := by
  unfold loadInto
  exact memRead_elim (fun _ => .finished ⟨rfl, rfl, rfl⟩) (fun ha hk hc => ends_waitAt rfl ha hk hc)
    (fun _ _ _ => ends_raiseAt ..)

theorem loadIndirect_ends (ir : Word) (dr : Reg) (a : Word) (s : State) :
    Ends ir (fun p => p = .ldiPointer dr a ∨ ∃ b, p = .load dr b) s (loadIndirect ir dr a s) := by
  unfold loadIndirect
  refine memRead_elim (fun _ => ?_) (fun ha hk hc => ends_waitAt (.inl rfl) ha hk hc) (fun _ _ _ => ends_raiseAt ..)
  exact ((loadInto_ends ir dr _ _).mono fun p hp => .inr ⟨_, hp⟩).after (sameControl_afterRead a s) rfl

theorem storeIndirect_ends (ir : Word) (sr : Reg) (a : Word) (s : State) :
    Ends ir (· = .stiPointer sr a) s (storeIndirect ir sr a s) := by
  unfold storeIndirect
  exact memRead_elim (fun _ => .finished ⟨rfl, rfl, rfl⟩) (fun ha hk hc => ends_waitAt rfl ha hk hc)
    (fun _ _ _ => ends_raiseAt ..)

theorem getcRoutine_ends (ir : Word) (s : State) : Ends ir (· = .getc) s (getcRoutine ir s) := by
  unfold getcRoutine
  exact consoleRead_elim (fun _ _ _ => .finished ⟨rfl, rfl, rfl⟩) (fun hk hc => ends_waitAt rfl trivial hk hc)
    (fun _ _ => ends_raiseAt ..)

theorem outRoutine_ends (ir : Word) (s : State) : Ends ir (fun _ => False) s (outRoutine ir s) := by
  unfold outRoutine
  exact consoleWrite_elim (fun _ => .finished ⟨rfl, rfl, rfl⟩) (fun _ => ends_raiseAt ..)

theorem inpRead_ends (ir : Word) (s : State) : Ends ir (· = .inp) s (inpRead ir s) := by
  unfold inpRead
  refine consoleRead_elim (fun c rest _ => ?_) (fun hk hc => ends_waitAt rfl trivial hk hc) (fun _ _ => ends_raiseAt ..)
  exact consoleWrite_elim (fun _ => .finished ⟨rfl, rfl, rfl⟩) (fun _ => .failed rfl rfl rfl)

theorem inpRoutine_ends (ir : Word) (s : State) : Ends ir (· = .inp) s (inpRoutine ir s) := by
  unfold inpRoutine
  exact consoleWriteAll_elim (inpRead_ends ..).afterWrote (fun _ => ends_raiseAt ..)

/-! ### A walk is long enough -/

/-- How far it is from `a` up to the keyboard-data address, wrapping. -/
def toKeyboard (a : Word) : Nat := (Config.kbdrAddr - a).toNat

theorem toKeyboard_next {a : Word} (h : a ≠ Config.kbdrAddr) : toKeyboard (a + 1#16) + 1 = toKeyboard a := by
  have : a.toNat ≠ 65026 := fun e => h (BitVec.eq_of_toNat_eq e)
  simp only [toKeyboard, Config.kbdrAddr, BitVec.toNat_sub, BitVec.toNat_add, BitVec.toNat_ofNat]
  have := a.isLt
  omega

theorem toKeyboard_lt (a : Word) : toKeyboard a < 65536 := (Config.kbdrAddr - a).isLt

/-- The cells PUTS can still read before it must stop at an empty keyboard. -/
def putsNeed (a : Word) (kbd : List Byte) : Nat := toKeyboard a + kbd.length * 65536

theorem putsNeed_lt_bound (a : Word) (s : State) : putsNeed a s.kbd < putsBound s := by
  have := toKeyboard_lt a
  simp only [putsNeed, putsBound]
  omega

/-- With enough cells to read, PUTS ends as R124 says and waits only for the keyboard. -/
theorem putsWalk_ends (ir : Word) (n : Nat) (a : Word) (s : State) (hn : putsNeed a s.kbd < n) :
    Ends ir (∃ b, · = .puts b) s (putsWalk ir n a s) := by
  induction n generalizing a s with
  | zero => omega
  | succ n ih =>
    unfold putsWalk
    refine memRead_elim (fun hr => ?_) (fun ha hk hc => ends_waitAt ⟨a, rfl⟩ ha hk hc) (fun _ _ _ => ends_raiseAt ..)
    refine Ends.after (sameControl_afterRead a s) rfl ?_
    split
    · exact .finished ⟨rfl, rfl, rfl⟩
    · refine consoleWrite_elim (fun _ => (ih _ _ ?_).afterWrote) (fun _ => ends_raiseAt ..)
      show toKeyboard (a + 1#16) + (kbdAfterRead a s).length * 65536 < n
      simp only [putsNeed] at hn
      by_cases ha : a = Config.kbdrAddr
      · have hk := hr ha
        have hlen : (kbdAfterRead a s).length + 1 = s.kbd.length := by
          obtain ⟨c, rest, e⟩ := List.exists_cons_of_ne_nil hk
          simp [kbdAfterRead, ha, e]
        have := toKeyboard_lt (a + 1#16)
        omega
      · have := toKeyboard_next ha
        simp only [kbdAfterRead, ha, if_false]
        omega

theorem putsFrom_ends (ir a : Word) (s : State) : Ends ir (∃ b, · = .puts b) s (putsFrom ir a s) :=
  putsWalk_ends ir _ a s (putsNeed_lt_bound a s)

/-- The number of cells allowed does not matter once it is enough. -/
theorem putsWalk_fuel (ir : Word) (n m : Nat) (a : Word) (s : State) (hn : putsNeed a s.kbd < n)
    (hm : putsNeed a s.kbd < m) : putsWalk ir n a s = putsWalk ir m a s := by
  induction n generalizing m a s with
  | zero => omega
  | succ n ih =>
    cases m with
    | zero => omega
    | succ m =>
      unfold putsWalk
      obtain ⟨hr, e⟩ | ⟨_, _, _, e⟩ | ⟨_, _, _, e⟩ := memRead_cases a s
      · simp only [e, andThen_done]
        split
        · rfl
        · by_cases ho : (afterRead a s).outClosed = true
          · rw [consoleWrite_closed ho]; rfl
          · simp only [Bool.not_eq_true] at ho
            rw [consoleWrite_open ho]
            simp only [andThenWritten_some]
            have hlt : putsNeed (a + 1#16) (kbdAfterRead a s) < n ∧ putsNeed (a + 1#16) (kbdAfterRead a s) < m := by
              simp only [putsNeed] at hn hm ⊢
              by_cases ha : a = Config.kbdrAddr
              · obtain ⟨c, rest, ek⟩ := List.exists_cons_of_ne_nil (hr ha)
                have := toKeyboard_lt (a + 1#16)
                simp only [kbdAfterRead, ha, if_true, ek, List.tail_cons, List.length_cons] at hn hm ⊢
                rw [← ha]
                omega
              · have := toKeyboard_next ha
                simp only [kbdAfterRead, ha, if_false]
                omega
            exact ih m (a + 1#16) _ hlt.1 hlt.2
      · simp only [e, andThen_wait]
      · simp only [e, andThen_fail]

/-- One cell of PUTS, without the bound (45_trap.md R124). -/
theorem putsFrom_unfold (ir a : Word) (s : State) :
    putsFrom ir a s = (memRead a s).andThen s ir (.puts a) fun w t =>
      if w = 0x0000#16 then t
      else andThenWritten (consoleWrite (lowByte w) t) t ir fun u => putsFrom ir (a + 1#16) u := by
  have hb := putsNeed_lt_bound a s
  obtain ⟨m, hm⟩ : ∃ m, m = putsBound s + 65536 := ⟨_, rfl⟩
  conv_lhs => unfold putsFrom
  rw [putsWalk_fuel ir (putsBound s) (m + 1) a s hb (by omega)]
  conv_lhs => unfold putsWalk
  obtain ⟨hr, e⟩ | ⟨_, _, _, e⟩ | ⟨_, _, _, e⟩ := memRead_cases a s
  · simp only [e, andThen_done]
    split
    · rfl
    · by_cases ho : (afterRead a s).outClosed = true
      · rw [consoleWrite_closed ho]; rfl
      · simp only [Bool.not_eq_true] at ho
        rw [consoleWrite_open ho]
        simp only [andThenWritten_some]
        have hlen : (kbdAfterRead a s).length ≤ s.kbd.length := by
          simp only [kbdAfterRead]; split <;> simp
        have := toKeyboard_lt (a + 1#16)
        refine putsWalk_fuel _ _ _ _ _ ?_ (putsNeed_lt_bound ..)
        show toKeyboard (a + 1#16) + (kbdAfterRead a s).length * 65536 < m
        simp only [putsBound] at hm
        omega
  · simp only [e, andThen_wait]
  · simp only [e, andThen_fail]

/-- With enough cells to read, PUTSP ends as R126 says and waits only for the keyboard: a character read there ends it. -/
theorem putspWalk_ends (ir : Word) (n : Nat) (a : Word) (s : State) (hn : toKeyboard a < n) :
    Ends ir (∃ b, · = .putsp b) s (putspWalk ir n a s) := by
  induction n generalizing a s with
  | zero => omega
  | succ n ih =>
    unfold putspWalk
    refine memRead_elim (fun hr => ?_) (fun ha hk hc => ends_waitAt ⟨a, rfl⟩ ha hk hc) (fun _ _ _ => ends_raiseAt ..)
    refine Ends.after (sameControl_afterRead a s) rfl ?_
    split
    · exact .finished ⟨rfl, rfl, rfl⟩
    · refine consoleWrite_elim (fun _ => ?_) (fun _ => ends_raiseAt ..)
      split
      · exact .finished ⟨rfl, rfl, rfl⟩
      · rename_i hhi
        refine consoleWrite_elim (fun _ => (ih _ _ ?_).afterWrote.afterWrote)
          (fun _ => .failed rfl rfl rfl)
        by_cases ha : a = Config.kbdrAddr
        · subst ha
          refine absurd ?_ hhi
          simp only [readValue, kbdrAddr_ne_kbsrAddr, if_false, if_true, highByte_zext16]
        · have := toKeyboard_next ha
          omega

theorem putspFrom_ends (ir a : Word) (s : State) : Ends ir (∃ b, · = .putsp b) s (putspFrom ir a s) :=
  putspWalk_ends ir _ a s (toKeyboard_lt a)

/-- The same for PUTSP. -/
theorem putspWalk_fuel (ir : Word) (n m : Nat) (a : Word) (s : State) (hn : toKeyboard a < n) (hm : toKeyboard a < m) :
    putspWalk ir n a s = putspWalk ir m a s := by
  induction n generalizing m a s with
  | zero => omega
  | succ n ih =>
    cases m with
    | zero => omega
    | succ m =>
      unfold putspWalk
      obtain ⟨hr, e⟩ | ⟨_, _, _, e⟩ | ⟨_, _, _, e⟩ := memRead_cases a s
      · simp only [e, andThen_done]
        by_cases ha : a = Config.kbdrAddr
        · have hhi : highByte (readValue a s) = 0x00#8 := by
            subst ha
            simp only [readValue, kbdrAddr_ne_kbsrAddr, if_false, if_true, highByte_zext16]
          simp only [hhi, if_true]
        · have hnext := toKeyboard_next ha
          have heq : ∀ u, putspWalk ir n (a + 1#16) u = putspWalk ir m (a + 1#16) u := fun u =>
            ih m (a + 1#16) u (by omega) (by omega)
          simp only [heq]
      · simp only [e, andThen_wait]
      · simp only [e, andThen_fail]

/-- One cell of PUTSP, without the bound (45_trap.md R126). -/
theorem putspFrom_unfold (ir a : Word) (s : State) :
    putspFrom ir a s = (memRead a s).andThen s ir (.putsp a) fun w t =>
      if lowByte w = 0x00#8 then t
      else andThenWritten (consoleWrite (lowByte w) t) t ir fun u =>
        if highByte w = 0x00#8 then u
        else andThenWritten (consoleWrite (highByte w) u) u ir fun v => putspFrom ir (a + 1#16) v := by
  obtain ⟨m, hm⟩ : ∃ m, m = putspBound := ⟨_, rfl⟩
  have hlt : ∀ b, toKeyboard b < m := fun b => hm ▸ toKeyboard_lt b
  have e : ∀ b t, putspWalk ir putspBound b t = putspWalk ir m b t := fun b t => by rw [hm]
  simp only [putspFrom, e]
  rw [putspWalk_fuel ir m (m + 1) a s (hlt a) (Nat.lt_succ_of_lt (hlt a))]
  rfl

end Sys2Proof.Machine
end

