-- ==== Sys2Proof/Laws/Exec.lean ====
section
/-! SUPPORT. What a step and an instruction can do, each said once: the ways through `step`, what every instruction leaves
alone, and how it leaves the controller (40_fetch_execute.md R70 to R75). -/

namespace Sys2Proof.Machine

/-! ### The ways through a step -/

theorem unhold_eq_self {s : State} (h : s.hold = none) : s.unhold = s := by
  cases s; simp_all [State.unhold]

@[simp] theorem memRead_unhold_pc (s : State) : s.unhold.pc = s.pc := rfl

theorem step_running_none {s : State} (hr : s.run = .running) (hh : s.hold = none) : step s = fetchExecute s := by
  simp [step, hr, hh]

theorem step_running_fetch {s : State} (hr : s.run = .running) (hh : s.hold = some .fetch) :
    step s = fetchExecute s.unhold := by simp [step, hr, hh]

theorem step_running_within {s : State} {ir : Word} {p : WaitPoint} (hr : s.run = .running)
    (hh : s.hold = some (.within ir p)) : step s = .next (resume ir p s.unhold) := by simp [step, hr, hh]

/-- A step into a next state starts from a running processor. -/
theorem running_of_step {s t : State} (h : step s = .next t) : s.run = .running := by
  cases hr : s.run with
  | running => rfl
  | halted => simp [step, hr] at h
  | faulted => simp [step, hr] at h

/-- The two ways through a step that answers a next state: a fetch, or going on inside an instruction. -/
theorem step_cases {s t : State} (h : step s = .next t) :
    ((s.hold = none ∨ s.hold = some .fetch) ∧ fetchExecute s.unhold = .next t) ∨
    ∃ ir p, s.hold = some (.within ir p) ∧ t = resume ir p s.unhold := by
  have hr := running_of_step h
  cases hh : s.hold with
  | none => rw [step_running_none hr hh] at h; exact .inl ⟨.inl rfl, by rwa [unhold_eq_self hh]⟩
  | some w =>
    cases w with
    | fetch => rw [step_running_fetch hr hh] at h; exact .inl ⟨.inr rfl, h⟩
    | within ir p =>
      rw [step_running_within hr hh] at h
      injection h with h
      exact .inr ⟨ir, p, rfl, h.symm⟩

theorem fetchExecute_ok {s u : State} {ir : Word} {i : Instr} (hm : memRead s.pc s = .done ir u)
    (hd : decode ir = .ok i) : fetchExecute s = exec i (u.setPc (s.pc + 1#16)) := by
  simp [fetchExecute, fetch, hm, hd]

theorem fetchExecute_error {s u : State} {ir : Word} {r : Reject} (hm : memRead s.pc s = .done ir u)
    (hd : decode ir = .error r) : fetchExecute s = .next ((u.setPc (s.pc + 1#16)).raiseIllegal ir) := by
  simp [fetchExecute, fetch, hm, hd]

theorem fetchExecute_wait {s : State} (hm : memRead s.pc s = .wait) : fetchExecute s = .next s.waitInFetch := by
  simp [fetchExecute, fetch, hm]

theorem fetchExecute_fail {s : State} (hm : memRead s.pc s = .fail) : fetchExecute s = .next s.failInFetch := by
  simp [fetchExecute, fetch, hm]

/-- What a fetch can lead to, in one place. -/
theorem fetchExecute_cases {s t : State} (h : fetchExecute s = .next t) :
    (ReadReady s.pc s ∧ ∃ i, decode (readValue s.pc s) = .ok i ∧
      exec i ((afterRead s.pc s).setPc (s.pc + 1#16)) = .next t) ∨
    (ReadReady s.pc s ∧ (∃ r, decode (readValue s.pc s) = .error r) ∧
      t = ((afterRead s.pc s).setPc (s.pc + 1#16)).raiseIllegal (readValue s.pc s)) ∨
    (s.pc = Config.kbdrAddr ∧ s.kbd = [] ∧ s.kbdClosed = false ∧ t = s.waitInFetch) ∨
    (s.pc = Config.kbdrAddr ∧ s.kbd = [] ∧ s.kbdClosed = true ∧ t = s.failInFetch) := by
  obtain ⟨hr, e⟩ | ⟨ha, hk, hc, e⟩ | ⟨ha, hk, hc, e⟩ := memRead_cases s.pc s
  · cases hd : decode (readValue s.pc s) with
    | ok i => rw [fetchExecute_ok e hd] at h; exact .inl ⟨hr, i, rfl, h⟩
    | error r =>
      rw [fetchExecute_error e hd] at h
      injection h with h
      exact .inr (.inl ⟨hr, ⟨r, rfl⟩, h.symm⟩)
  · rw [fetchExecute_wait e] at h
    injection h with h
    exact .inr (.inr (.inl ⟨ha, hk, hc, h.symm⟩))
  · rw [fetchExecute_fail e] at h
    injection h with h
    exact .inr (.inr (.inr ⟨ha, hk, hc, h.symm⟩))

/-! ### The dispatcher, vector by vector (45_trap.md R121) -/

section
variable (ir : Word) (s : State)
theorem trapDispatch_getc : trapDispatch 0x20#8 ir s = getcRoutine ir s := by simp [trapDispatch]
theorem trapDispatch_out : trapDispatch 0x21#8 ir s = outRoutine ir s := by simp [trapDispatch]
theorem trapDispatch_puts : trapDispatch 0x22#8 ir s = putsRoutine ir s := by simp [trapDispatch]
theorem trapDispatch_inp : trapDispatch 0x23#8 ir s = inpRoutine ir s := by simp [trapDispatch]
theorem trapDispatch_putsp : trapDispatch 0x24#8 ir s = putspRoutine ir s := by simp [trapDispatch]
theorem trapDispatch_halt : trapDispatch 0x25#8 ir s = haltRoutine ir s := by simp [trapDispatch]
end

theorem not_service_iff {v : Byte} : isServiceVector v = false ↔
    v ≠ 0x20#8 ∧ v ≠ 0x21#8 ∧ v ≠ 0x22#8 ∧ v ≠ 0x23#8 ∧ v ≠ 0x24#8 ∧ v ≠ 0x25#8 := by
  revert v; decide

theorem trapDispatch_other {v : Byte} (h : isServiceVector v = false) (ir : Word) (s : State) :
    trapDispatch v ir s = s.raiseAt .illegalTrap ir := by
  obtain ⟨h0, h1, h2, h3, h4, h5⟩ := not_service_iff.1 h
  simp [trapDispatch, h0, h1, h2, h3, h4, h5]

/-- The dispatcher's seven cases. -/
theorem trapDispatch_elim {motive : Byte → State → Prop} (v : Byte) (ir : Word) (s : State)
    (getc : motive 0x20#8 (getcRoutine ir s)) (out : motive 0x21#8 (outRoutine ir s))
    (puts : motive 0x22#8 (putsRoutine ir s)) (inp : motive 0x23#8 (inpRoutine ir s))
    (putsp : motive 0x24#8 (putspRoutine ir s)) (halt : motive 0x25#8 (haltRoutine ir s))
    (other : isServiceVector v = false → motive v (s.raiseAt .illegalTrap ir)) : motive v (trapDispatch v ir s) := by
  by_cases hs : isServiceVector v = false
  · rw [trapDispatch_other hs]; exact other hs
  · have : v = 0x20#8 ∨ v = 0x21#8 ∨ v = 0x22#8 ∨ v = 0x23#8 ∨ v = 0x24#8 ∨ v = 0x25#8 := by
      by_contra hc
      simp only [not_or] at hc
      exact hs (not_service_iff.2 hc)
    obtain rfl | rfl | rfl | rfl | rfl | rfl := this
    · rw [trapDispatch_getc]; exact getc
    · rw [trapDispatch_out]; exact out
    · rw [trapDispatch_puts]; exact puts
    · rw [trapDispatch_inp]; exact inp
    · rw [trapDispatch_putsp]; exact putsp
    · rw [trapDispatch_halt]; exact halt

/-! ### Every arm, as the state it answers -/

/-- Every instruction answers a next state: `execState i s`. -/
def execState (i : Instr) (s : State) : State :=
  match i with
  | .addReg dr sr1 sr2 => s.define dr (s.reg sr1 + s.reg sr2)
  | .addImm dr sr1 imm5 => s.define dr (s.reg sr1 + sext imm5)
  | .andReg dr sr1 sr2 => s.define dr (s.reg sr1 &&& s.reg sr2)
  | .andImm dr sr1 imm5 => s.define dr (s.reg sr1 &&& sext imm5)
  | .not dr sr => s.define dr (~~~s.reg sr)
  | .ld dr off => loadInto (encode (.ld dr off)) dr (pcRelative off s) s
  | .ldi dr off => loadIndirect (encode (.ldi dr off)) dr (pcRelative off s) s
  | .ldr dr base off => loadInto (encode (.ldr dr base off)) dr (basePlus base off s) s
  | .lea dr off => s.define dr (pcRelative off s)
  | .st sr off => s.memWrite (pcRelative off s) (s.reg sr)
  | .sti sr off => storeIndirect (encode (.sti sr off)) sr (pcRelative off s) s
  | .str sr base off => s.memWrite (basePlus base off s) (s.reg sr)
  | .br n z p off => if taken n z p s.cc then s.setPc (pcRelative off s) else s
  | .jsr off => s.link.setPc (pcRelative off s)
  | .jsrr base => s.link.setPc (s.link.reg base)
  | .jmp base => s.setPc (s.reg base)
  | .ret => s.setPc (s.reg .r7)
  | .trap v => trapDispatch v (trapWord v) s.trapLinked
  | .getc => getcRoutine (trapWord 0x20#8) s.trapLinked
  | .out => outRoutine (trapWord 0x21#8) s.trapLinked
  | .puts => putsRoutine (trapWord 0x22#8) s.trapLinked
  | .inp => inpRoutine (trapWord 0x23#8) s.trapLinked
  | .putsp => putspRoutine (trapWord 0x24#8) s.trapLinked
  | .halt => haltRoutine (trapWord 0x25#8) s.trapLinked
  | .rti low => s.raiseAt .illegalInstruction (encode (.rti low))
  | .reserved low => s.raiseAt .illegalInstruction (encode (.reserved low))

theorem exec_eq (i : Instr) (s : State) : exec i s = .next (execState i s) := by cases i <;> rfl

theorem exec_next_iff {i : Instr} {s t : State} : exec i s = .next t ↔ t = execState i s := by
  rw [exec_eq]
  exact ⟨fun h => by injection h with h; exact h.symm, fun h => by rw [h]⟩

/-! ### How an instruction leaves the controller -/

/-- What an instruction can leave in `run`, `fault` and `hold`. -/
inductive ExecEnds (i : Instr) (s t : State) : Prop where
  | console (h : Ends (encode i) (fun p => p.ofInstr i.named) s t)
  | halted (isHalt : i.named = .halt) (run : t.run = .halted) (fault : t.fault = s.fault) (hold : t.hold = s.hold)
  | raised (cause : Cause) (run : t.run = .faulted) (fault : t.fault = some ⟨cause, s.ia, some (encode i)⟩)
      (hold : t.hold = s.hold)

theorem haltRoutine_ends (ir : Word) (s : State) :
    ((haltRoutine ir s).run = .halted ∧ (haltRoutine ir s).fault = s.fault ∧ (haltRoutine ir s).hold = s.hold) ∨
    ((haltRoutine ir s).run = .faulted ∧ (haltRoutine ir s).fault = some ⟨.consoleIOFailure, s.ia, some ir⟩ ∧
      (haltRoutine ir s).hold = s.hold) := by
  unfold haltRoutine
  refine consoleWriteAll_elim (motive := fun t =>
    (t.run = .halted ∧ t.fault = s.fault ∧ t.hold = s.hold) ∨
    (t.run = .faulted ∧ t.fault = some ⟨.consoleIOFailure, s.ia, some ir⟩ ∧ t.hold = s.hold))
    (.inl ⟨rfl, rfl, rfl⟩) (fun _ => .inr ⟨rfl, rfl, rfl⟩)

theorem Ends.afterLink {ir : Word} {P : WaitPoint → Prop} {s u : State} (h : Ends ir P s.trapLinked u) :
    Ends ir P s u := Ends.after (t := s.trapLinked) ⟨rfl, rfl, rfl⟩ rfl h

theorem putsRoutine_ends (ir : Word) (s : State) : Ends ir (∃ b, · = .puts b) s (putsRoutine ir s) :=
  putsFrom_ends ir _ s

theorem putspRoutine_ends (ir : Word) (s : State) : Ends ir (∃ b, · = .putsp b) s (putspRoutine ir s) :=
  putspFrom_ends ir _ s

theorem serviceName_getc : serviceName 0x20#8 = .getc := rfl
theorem serviceName_out : serviceName 0x21#8 = .out := rfl
theorem serviceName_puts : serviceName 0x22#8 = .puts := rfl
theorem serviceName_inp : serviceName 0x23#8 = .inp := rfl
theorem serviceName_putsp : serviceName 0x24#8 = .putsp := rfl
theorem serviceName_halt : serviceName 0x25#8 = .halt := rfl

theorem execState_ends (i : Instr) (s : State) : ExecEnds i s (execState i s) := by
  have same : ∀ {j : Instr} {t : State}, SameControl s t → ExecEnds j s t := fun h => .console (.finished h)
  cases i with
  | addReg | addImm | andReg | andImm | not | lea | st | str | jsr | jsrr | jmp | ret => exact same ⟨rfl, rfl, rfl⟩
  | br n z p off =>
    refine same ?_
    simp only [execState]
    split <;> exact ⟨rfl, rfl, rfl⟩
  | ld dr off => exact .console ((loadInto_ends ..).mono fun p hp => by subst hp; exact .inl ⟨off, rfl⟩)
  | ldi dr off =>
    refine .console ((loadIndirect_ends ..).mono fun p hp => ?_)
    obtain rfl | ⟨b, rfl⟩ := hp
    · exact ⟨off, rfl⟩
    · exact .inr (.inl ⟨off, rfl⟩)
  | ldr dr base off => exact .console ((loadInto_ends ..).mono fun p hp => by subst hp; exact .inr (.inr ⟨base, off, rfl⟩))
  | sti sr off => exact .console ((storeIndirect_ends ..).mono fun p hp => by subst hp; exact ⟨off, rfl⟩)
  | rti low => exact .raised _ rfl rfl rfl
  | reserved low => exact .raised _ rfl rfl rfl
  | getc => exact .console (((getcRoutine_ends ..).afterLink).mono fun p hp => by subst hp; rfl)
  | out => exact .console (((outRoutine_ends ..).afterLink).mono fun p hp => hp.elim)
  | puts => exact .console (((putsRoutine_ends ..).afterLink).mono fun p hp => by obtain ⟨b, rfl⟩ := hp; rfl)
  | inp => exact .console (((inpRoutine_ends ..).afterLink).mono fun p hp => by subst hp; rfl)
  | putsp => exact .console (((putspRoutine_ends ..).afterLink).mono fun p hp => by obtain ⟨b, rfl⟩ := hp; rfl)
  | halt =>
    obtain ⟨h1, h2, h3⟩ | ⟨h1, h2, h3⟩ := haltRoutine_ends (trapWord 0x25#8) s.trapLinked
    · exact .halted rfl h1 h2 h3
    · exact .console (.failed h1 h2 h3)
  | trap v =>
    simp only [execState]
    refine trapDispatch_elim (motive := fun w t => v = w → ExecEnds (.trap v) s t) v _ _
      ?_ ?_ ?_ ?_ ?_ ?_ (fun _ _ => .raised _ rfl rfl rfl) rfl
    · rintro rfl
      exact .console (((getcRoutine_ends ..).afterLink).mono fun p hp => by subst hp; exact serviceName_getc)
    · rintro rfl
      exact .console (((outRoutine_ends ..).afterLink).mono fun p hp => hp.elim)
    · rintro rfl
      exact .console (((putsRoutine_ends ..).afterLink).mono fun p hp => by
        obtain ⟨b, rfl⟩ := hp; exact serviceName_puts)
    · rintro rfl
      exact .console (((inpRoutine_ends ..).afterLink).mono fun p hp => by subst hp; exact serviceName_inp)
    · rintro rfl
      exact .console (((putspRoutine_ends ..).afterLink).mono fun p hp => by
        obtain ⟨b, rfl⟩ := hp; exact serviceName_putsp)
    · rintro rfl
      obtain ⟨h1, h2, h3⟩ | ⟨h1, h2, h3⟩ := haltRoutine_ends (trapWord 0x25#8) s.trapLinked
      · exact .halted serviceName_halt h1 h2 h3
      · exact .console (.failed h1 h2 h3)

end Sys2Proof.Machine
end

