-- ==== Sys2Proof/Laws/PerInstr.lean ====
section
/-! SUPPORT. What holds of every instruction as syntax, one lemma per constructor. -/

namespace Sys2Proof

/-- The opcode of an instruction, from the rows of 30_encoding.md R57. -/
def Instr.opcode : Instr → Opcode
  | .addReg .. | .addImm .. => .add
  | .andReg .. | .andImm .. => .and
  | .not .. => .not
  | .ld .. => .ld
  | .ldi .. => .ldi
  | .ldr .. => .ldr
  | .lea .. => .lea
  | .st .. => .st
  | .sti .. => .sti
  | .str .. => .str
  | .br .. => .br
  | .jsr .. | .jsrr .. => .jsr
  | .jmp .. | .ret => .jmp
  | .trap .. | .getc | .out | .puts | .inp | .putsp | .halt => .trap
  | .rti .. => .rti
  | .reserved .. => .reserved

namespace Laws

/-- The four bits of an opcode name it. -/
theorem opcode_ofBits_bits (o : Opcode) : Opcode.ofBits o.bits = o := by cases o <;> rfl

/-- Bits above the right half of an append are bits of the left half. -/
theorem extract_append_left {n m : Nat} (x : BitVec n) (y : BitVec m) (lo len : Nat) (h : m ≤ lo) :
    (x ++ y).extractLsb' lo len = x.extractLsb' (lo - m) len := by
  apply BitVec.eq_of_getLsbD_eq
  intro k hk
  simp only [BitVec.getLsbD_extractLsb', BitVec.getLsbD_append]
  rw [if_neg (by omega), show lo - m + k = lo + k - m by omega]

/-- The word of an instruction has the opcode of its row in `ir[15:12]`. -/
def OpcodeField.Statement (i : Instr) : Prop := opcodeOf (encode i) = i.opcode

/-- A well-formed instruction is called back by its row's name from its first name. -/
def RowName.Statement (i : Instr) : Prop := i.wellFormed = true → i.canonical.named = i

namespace OpcodeField

theorem addReg (dr sr1 sr2 : Reg) : Statement (.addReg dr sr1 sr2) := by
  unfold Statement opcodeOf encode
  repeat rw [extract_append_left _ _ _ _ (by omega)]
  rfl

theorem addImm (dr sr1 : Reg) (imm5 : BitVec 5) : Statement (.addImm dr sr1 imm5) := by
  unfold Statement opcodeOf encode
  repeat rw [extract_append_left _ _ _ _ (by omega)]
  rfl

theorem andReg (dr sr1 sr2 : Reg) : Statement (.andReg dr sr1 sr2) := by
  unfold Statement opcodeOf encode
  repeat rw [extract_append_left _ _ _ _ (by omega)]
  rfl

theorem andImm (dr sr1 : Reg) (imm5 : BitVec 5) : Statement (.andImm dr sr1 imm5) := by
  unfold Statement opcodeOf encode
  repeat rw [extract_append_left _ _ _ _ (by omega)]
  rfl

theorem not (dr sr : Reg) : Statement (.not dr sr) := by
  unfold Statement opcodeOf encode
  repeat rw [extract_append_left _ _ _ _ (by omega)]
  rfl

theorem ld (dr : Reg) (off : BitVec 9) : Statement (.ld dr off) := by
  unfold Statement opcodeOf encode
  repeat rw [extract_append_left _ _ _ _ (by omega)]
  rfl

theorem ldi (dr : Reg) (off : BitVec 9) : Statement (.ldi dr off) := by
  unfold Statement opcodeOf encode
  repeat rw [extract_append_left _ _ _ _ (by omega)]
  rfl

theorem ldr (dr base : Reg) (off : BitVec 6) : Statement (.ldr dr base off) := by
  unfold Statement opcodeOf encode
  repeat rw [extract_append_left _ _ _ _ (by omega)]
  rfl

theorem lea (dr : Reg) (off : BitVec 9) : Statement (.lea dr off) := by
  unfold Statement opcodeOf encode
  repeat rw [extract_append_left _ _ _ _ (by omega)]
  rfl

theorem st (sr : Reg) (off : BitVec 9) : Statement (.st sr off) := by
  unfold Statement opcodeOf encode
  repeat rw [extract_append_left _ _ _ _ (by omega)]
  rfl

theorem sti (sr : Reg) (off : BitVec 9) : Statement (.sti sr off) := by
  unfold Statement opcodeOf encode
  repeat rw [extract_append_left _ _ _ _ (by omega)]
  rfl

theorem str (sr base : Reg) (off : BitVec 6) : Statement (.str sr base off) := by
  unfold Statement opcodeOf encode
  repeat rw [extract_append_left _ _ _ _ (by omega)]
  rfl

theorem br (n z p : Bool) (off : BitVec 9) : Statement (.br n z p off) := by
  unfold Statement opcodeOf encode
  repeat rw [extract_append_left _ _ _ _ (by omega)]
  rfl

theorem jsr (off : BitVec 11) : Statement (.jsr off) := by
  unfold Statement opcodeOf encode
  repeat rw [extract_append_left _ _ _ _ (by omega)]
  rfl

theorem jsrr (base : Reg) : Statement (.jsrr base) := by
  unfold Statement opcodeOf encode
  repeat rw [extract_append_left _ _ _ _ (by omega)]
  rfl

theorem jmp (base : Reg) : Statement (.jmp base) := by
  unfold Statement opcodeOf encode
  repeat rw [extract_append_left _ _ _ _ (by omega)]
  rfl

theorem ret : Statement .ret := rfl

theorem trap (vect : Byte) : Statement (.trap vect) := by
  unfold Statement opcodeOf encode
  unfold trapWord
  repeat rw [extract_append_left _ _ _ _ (by omega)]
  rfl

theorem getc : Statement .getc := rfl

theorem out : Statement .out := rfl

theorem puts : Statement .puts := rfl

theorem inp : Statement .inp := rfl

theorem putsp : Statement .putsp := rfl

theorem halt : Statement .halt := rfl

theorem rti (low : BitVec 12) : Statement (.rti low) := by
  unfold Statement opcodeOf encode
  repeat rw [extract_append_left _ _ _ _ (by omega)]
  rfl

theorem reserved (low : BitVec 12) : Statement (.reserved low) := by
  unfold Statement opcodeOf encode
  repeat rw [extract_append_left _ _ _ _ (by omega)]
  rfl

end OpcodeField

namespace RowName

theorem addReg (dr sr1 sr2 : Reg) : Statement (.addReg dr sr1 sr2) := fun _ => rfl

theorem addImm (dr sr1 : Reg) (imm5 : BitVec 5) : Statement (.addImm dr sr1 imm5) := fun _ => rfl

theorem andReg (dr sr1 sr2 : Reg) : Statement (.andReg dr sr1 sr2) := fun _ => rfl

theorem andImm (dr sr1 : Reg) (imm5 : BitVec 5) : Statement (.andImm dr sr1 imm5) := fun _ => rfl

theorem not (dr sr : Reg) : Statement (.not dr sr) := fun _ => rfl

theorem ld (dr : Reg) (off : BitVec 9) : Statement (.ld dr off) := fun _ => rfl

theorem ldi (dr : Reg) (off : BitVec 9) : Statement (.ldi dr off) := fun _ => rfl

theorem ldr (dr base : Reg) (off : BitVec 6) : Statement (.ldr dr base off) := fun _ => rfl

theorem lea (dr : Reg) (off : BitVec 9) : Statement (.lea dr off) := fun _ => rfl

theorem st (sr : Reg) (off : BitVec 9) : Statement (.st sr off) := fun _ => rfl

theorem sti (sr : Reg) (off : BitVec 9) : Statement (.sti sr off) := fun _ => rfl

theorem str (sr base : Reg) (off : BitVec 6) : Statement (.str sr base off) := fun _ => rfl

theorem br (n z p : Bool) (off : BitVec 9) : Statement (.br n z p off) := fun _ => rfl

theorem jsr (off : BitVec 11) : Statement (.jsr off) := fun _ => rfl

theorem jsrr (base : Reg) : Statement (.jsrr base) := fun _ => rfl

theorem jmp (base : Reg) : Statement (.jmp base) := by cases base <;> first | (intro; rfl) | (intro h; cases h)

theorem ret : Statement .ret := fun _ => rfl

theorem trap (vect : Byte) : Statement (.trap vect) := by
  intro h
  simp only [Instr.wellFormed, isServiceVector] at h
  show serviceName vect = .trap vect
  unfold serviceName
  repeat rw [if_neg (by rintro rfl; simp at h)]

theorem getc : Statement .getc := fun _ => rfl

theorem out : Statement .out := fun _ => rfl

theorem puts : Statement .puts := fun _ => rfl

theorem inp : Statement .inp := fun _ => rfl

theorem putsp : Statement .putsp := fun _ => rfl

theorem halt : Statement .halt := fun _ => rfl

theorem rti (low : BitVec 12) : Statement (.rti low) := fun _ => rfl

theorem reserved (low : BitVec 12) : Statement (.reserved low) := fun _ => rfl

end RowName

end Laws
end Sys2Proof
end

