-- ==== Sys2Proof/Tests/Slice0.lean ====
section
/-! SUPPORT. Tests of one step or one operation, the expected results taken from 95_test_vectors.md unless said
otherwise, and for every obligation with hypotheses a witness that meets them. -/

set_option maxRecDepth 4000

namespace Sys2Proof.Tests

open Machine

/-! ### Helpers -/

/-- Reset with the word `w` at `0x3000`. -/
def start (w : Nat) : State := State.reset.withFetchWord 16 w

/-- Reset with pc at `a` and the word `w` there. -/
def startAt (a : Word) (w : Nat) : State := { State.reset with pc := a }.withFetchWord 16 w

/-- What `f` sees after one step. -/
def peek {α : Type} (f : State → α) (s : State) : Option α :=
  match step s with
  | .next t => some (f t)
  | .fault _ => none
  | .refused _ => none

/-- What `f` sees after `i`. -/
def peekExec {α : Type} (f : State → α) (i : Instr) (s : State) : Option α :=
  match exec i s with
  | .next t => some (f t)
  | .fault _ => none
  | .refused _ => none

theorem step_of_peek {α : Type} {f : State → α} {s : State} {x : α} (h : peek f s = some x) :
    ∃ t, step s = .next t ∧ f t = x := by
  unfold peek at h
  split at h
  · exact ⟨_, ‹_›, by simpa using h⟩
  · cases h
  · cases h

theorem exec_of_peek {α : Type} {f : State → α} {i : Instr} {s : State} {x : α} (h : peekExec f i s = some x) :
    ∃ t, exec i s = .next t ∧ f t = x := by
  unfold peekExec at h
  split at h
  · exact ⟨_, ‹_›, by simpa using h⟩
  · cases h
  · cases h

theorem ball_of_all {ws : List Word} {p : Word → Bool} {P : Word → Prop} (h : ws.all p = true)
    (hp : ∀ w, p w = true → P w) : ∀ w ∈ ws, P w := fun w hw => hp w (List.all_eq_true.mp h w hw)

/-- A running state that does not wait is sound if its memory is. -/
theorem inv_running {s : State} (hm : s.mem.wf = true) (hr : s.run = .running) (hf : s.fault = none)
    (hh : s.hold = none) : s.Inv where
  memWf := hm
  faultIffFaulted := by simp [hr, hf]
  holdRunning := by simp [hh]
  holdFetch := by simp [hh]
  holdWithin := by simp [hh]

/-- A state that waits in the fetch is sound. -/
theorem inv_fetchWait {s : State} (hm : s.mem.wf = true) (hr : s.run = .running) (hf : s.fault = none)
    (hh : s.hold = some .fetch) (hp : s.pc = Config.kbdrAddr) : s.Inv where
  memWf := hm
  faultIffFaulted := by simp [hr, hf]
  holdRunning _ := hr
  holdFetch _ := hp
  holdWithin := by simp [hh]

/-- A state that waits in GETC is sound. -/
theorem inv_getcWait {s : State} (hm : s.mem.wf = true) (hr : s.run = .running) (hf : s.fault = none)
    (hh : s.hold = some (.within 0xF020#16 .getc)) : s.Inv where
  memWf := hm
  faultIffFaulted := by simp [hr, hf]
  holdRunning _ := hr
  holdFetch := by simp [hh]
  holdWithin ir p h := by
    rw [hh] at h
    cases h
    exact ⟨trivial, .getc, rfl, rfl⟩

/-! ### WellFormed: the one check, a word with a second name written by its first -/

theorem test_wf_jmp_r7 : (Instr.jmp .r7).wellFormed = false := by decide
theorem test_wf_trap_getc : (Instr.trap 0x20#8).wellFormed = false := by decide
theorem test_wf_trap_halt : (Instr.trap 0x25#8).wellFormed = false := by decide
theorem test_wf_trap_below : (Instr.trap 0x1F#8).wellFormed = true := by decide
theorem test_wf_trap_above : (Instr.trap 0x26#8).wellFormed = true := by decide

/-! ### Decoding: every constructor, its word written from the format of 30_encoding.md R51 -/

theorem test_decode_addReg : decodeTableWord 16 0b0001_010_000_0_00_001 = some (.addReg .r2 .r0 .r1) := by decide
theorem test_decode_addImm : decodeTableWord 16 0b0001_011_010_1_10001 = some (.addImm .r3 .r2 0b10001#5) := by decide
theorem test_decode_andReg : decodeTableWord 16 0b0101_001_010_0_00_011 = some (.andReg .r1 .r2 .r3) := by decide
theorem test_decode_andImm : decodeTableWord 16 0b0101_110_101_1_01110 = some (.andImm .r6 .r5 0b01110#5) := by decide
theorem test_decode_not : decodeTableWord 16 0b1001_001_010_111111 = some (.not .r1 .r2) := by decide
theorem test_decode_ld : decodeTableWord 16 0b0010_100_100000001 = some (.ld .r4 0b100000001#9) := by decide
theorem test_decode_ldi : decodeTableWord 16 0b1010_001_000000001 = some (.ldi .r1 1#9) := by decide
theorem test_decode_ldr : decodeTableWord 16 0b0110_001_010_100001 = some (.ldr .r1 .r2 0b100001#6) := by decide
theorem test_decode_lea : decodeTableWord 16 0b1110_111_111111110 = some (.lea .r7 0b111111110#9) := by decide
theorem test_decode_st : decodeTableWord 16 0b0011_001_000000010 = some (.st .r1 2#9) := by decide
theorem test_decode_sti : decodeTableWord 16 0b1011_101_011000000 = some (.sti .r5 0b011000000#9) := by decide
theorem test_decode_str : decodeTableWord 16 0b0111_001_110_100000 = some (.str .r1 .r6 0b100000#6) := by decide
theorem test_decode_br : decodeTableWord 16 0b0000_1_0_0_100000000 = some (.br true false false 0b100000000#9) := by decide
theorem test_decode_brz : decodeTableWord 16 0b0000_0_1_0_000000101 = some (.br false true false 5#9) := by decide
theorem test_decode_brp : decodeTableWord 16 0b0000_0_0_1_000000101 = some (.br false false true 5#9) := by decide
theorem test_decode_jsr : decodeTableWord 16 0b0100_1_10000000011 = some (.jsr 0b10000000011#11) := by decide
theorem test_decode_jsrr : decodeTableWord 16 0b0100_000_110_000000 = some (.jsrr .r6) := by decide
theorem test_decode_jmp : decodeTableWord 16 0b1100_000_011_000000 = some (.jmp .r3) := by decide
theorem test_decode_ret : decodeTableWord 16 0b1100_000_111_000000 = some .ret := by decide
theorem test_decode_trap : decodeTableWord 16 0b1111_0000_10000001 = some (.trap 0x81#8) := by decide
theorem test_decode_getc : decodeTableWord 16 0b1111_0000_00100000 = some .getc := by decide
theorem test_decode_out : decodeTableWord 16 0b1111_0000_00100001 = some .out := by decide
theorem test_decode_puts : decodeTableWord 16 0b1111_0000_00100010 = some .puts := by decide
theorem test_decode_inp : decodeTableWord 16 0b1111_0000_00100011 = some .inp := by decide
theorem test_decode_putsp : decodeTableWord 16 0b1111_0000_00100100 = some .putsp := by decide
theorem test_decode_halt : decodeTableWord 16 0b1111_0000_00100101 = some .halt := by decide
theorem test_decode_rti : decodeTableWord 16 0b1000_101010111100 = some (.rti 0xABC#12) := by decide
theorem test_decode_reserved : decodeTableWord 16 0b1101_111111111111 = some (.reserved 0xFFF#12) := by decide

/-- The illegal words of 30_encoding.md R58. -/
theorem test_decode_illegal : [0x1408, 0x5010, 0x9280, 0x4081, 0x4280, 0xC0C1, 0xC2C0, 0xF125].map
    (fun w => (decodeTableWord 16 w).isNone) = List.replicate 8 true := by decide

/-! ### Extension and flags (95_test_vectors.md section 2.1) -/

theorem test_sext : [sext 0b01111#5, sext 0b10000#5, sext 0b011111#6, sext 0b100000#6, sext 0x0FF#9, sext 0x100#9,
    sext 0x3FF#11, sext 0x400#11, sext 0x7FF#11] =
    [0x000F, 0xFFF0, 0x001F, 0xFFE0, 0x00FF, 0xFF00, 0x03FF, 0xFC00, 0xFFFF] := by decide
theorem test_setcc : [0x0000, 0x0001, 0x7FFF, 0x8000, 0xFFFF].map ccOf = [.z, .p, .p, .n, .n] := by decide

/-! ### Operate (section 2.2) -/

theorem test_add_wraps : peek (fun t => (t.reg .r2, t.cc, t.pc))
    (((start 0x1401).setReg .r0 0x7FFF).setReg .r1 1) = some (0x8000, .n, 0x3001) := by decide
theorem test_add_doubles : peek (fun t => (t.reg .r0, t.cc)) ((start 0x1000).setReg .r0 0x8000) = some (0, .z) := by decide
theorem test_addImm_minus_one : peek (fun t => (t.reg .r3, t.cc)) (start 0x16FF) = some (0xFFFF, .n) := by decide
theorem test_addImm_last_cell : peek (fun t => (t.reg .r0, t.cc, t.pc)) (startAt 0xFFFF 0x1021) = some (1, .p, 0) := by decide
theorem test_and : peek (fun t => (t.reg .r1, t.cc))
    (((start 0x5283).setReg .r2 0xF0F0).setReg .r3 0xFF00) = some (0xF000, .n) := by decide
theorem test_andImm_sign : peek (fun t => (t.reg .r1, t.cc)) ((start 0x52B0).setReg .r2 0x12FF) = some (0x12F0, .p) := by
  decide
theorem test_not : peek (fun t => (t.reg .r1, t.cc)) ((start 0x92BF).setReg .r2 0x00FF) = some (0xFF00, .n) := by decide
theorem test_not_zero : peek (fun t => (t.reg .r0, t.cc)) ((start 0x903F).setReg .r0 0xFFFF) = some (0, .z) := by decide

/-! ### Loads (section 2.3) -/

theorem test_ld : peek (fun t => (t.reg .r1, t.cc)) ((start 0x2202).memWrite 0x3003 0xBEEF) = some (0xBEEF, .n) := by decide
theorem test_ld_wraps : peek (fun t => (t.reg .r2, t.cc, t.pc))
    ((startAt 0x0000 0x25FE).memWrite 0xFFFF 0x7777) = some (0x7777, .p, 1) := by decide
theorem test_ldi : peek (fun t => (t.reg .r1, t.cc))
    (((start 0xA201).memWrite 0x3002 0x4000).memWrite 0x4000 0x8001) = some (0x8001, .n) := by decide
theorem test_ldi_keyboard : peek (fun t => (t.reg .r0, t.cc, t.kbd))
    (((start 0xA001).memWrite 0x3002 0xFE02).setKbd [0x61, 0x7A]) = some (0x0061, .p, [0x7A]) := by decide
theorem test_ldr_wraps : peek (fun t => (t.reg .r1, t.cc))
    (((start 0x629F).setReg .r2 0xFFF0).memWrite 0x000F 0x8000) = some (0x8000, .n) := by decide
theorem test_ldr_same : peek (fun t => (t.reg .r2, t.cc)) ((start 0x6480).setReg .r2 0x5000) = some (0, .z) := by decide
theorem test_lea_zero : peek (fun t => (t.reg .r1, t.cc, t.pc)) (startAt 0x00FF 0xE300) = some (0, .z, 0x0100) := by decide
theorem test_lea_sign : peek (fun t => (t.reg .r1, t.cc)) (startAt 0x7F00 0xE2FF) = some (0x8000, .n) := by decide

/-! ### Stores (section 2.4) -/

theorem test_st : peek (fun t => (t.cell 0x3003, t.cc)) ((start 0x3202).setReg .r1 0xCAFE) = some (0xCAFE, .z) := by decide
theorem test_st_itself : peek (fun t => (t.cell 0x3000, t.pc, t.run)) ((start 0x33FF).setReg .r1 0xF025) =
    some (0xF025, 0x3001, .running) := by decide
theorem test_sti : peek (fun t => (t.cell 0x4000, t.cell 0x3002))
    (((start 0xB201).setReg .r1 0x5555).memWrite 0x3002 0x4000) = some (0x5555, 0x4000) := by decide
/-- A store to the status address is not read back: bit 15 stays 0 on an empty keyboard. -/
theorem test_sti_status : peek (fun t => (t.cell 0xFE00, consolePoll t, t.run))
    (((start 0xB201).setReg .r1 0xFFFF).memWrite 0x3002 0xFE00) = some (0xFFFF, false, .running) := by decide
theorem test_str : peek (fun t => t.cell 0xFFE0) ((start 0x72A0).setReg .r1 0x0BAD) = some 0x0BAD := by decide
theorem test_str_same : peek (fun t => t.cell 0x4001) ((start 0x7241).setReg .r1 0x4000) = some 0x4000 := by decide

/-! ### Control (section 2.5) -/

theorem test_br_table : [0x0005, 0x0205, 0x0405, 0x0605, 0x0805, 0x0A05, 0x0C05, 0x0E05].map
    (fun w => [CC.n, .z, .p].map fun cc => peek (fun t => t.pc == 0x3006) { start w with cc := cc }) =
    [[false, false, false], [false, false, true], [false, true, false], [false, true, true], [true, false, false],
      [true, false, true], [true, true, false], [true, true, true]].map (List.map some) := by decide
theorem test_br_wraps : peek State.pc (startAt 0xFFFF 0x0E01) = some 1 := by decide
theorem test_jsr_back : peek (fun t => (t.reg .r7, t.pc)) (start 0x4C00) = some (0x3001, 0x2C01) := by decide
theorem test_jsrr : peek (fun t => (t.reg .r7, t.pc)) ((start 0x4080).setReg .r2 0x5000) = some (0x3001, 0x5000) := by decide
theorem test_jsrr_r7 : peek (fun t => (t.reg .r7, t.pc)) ((start 0x41C0).setReg .r7 0x5000) = some (0x3001, 0x3001) := by
  decide
theorem test_jmp : peek State.pc ((start 0xC0C0).setReg .r3 0xFFFF) = some 0xFFFF := by decide
theorem test_ret : peek State.pc ((start 0xC1C0).setReg .r7 0x3456) = some 0x3456 := by decide

/-! ### TRAP and the routines (section 2.6) -/

theorem test_getc : peek (fun t => (t.reg .r0, t.cc, t.kbd, t.out))
    (({ start 0xF020 with cc := .p }.setReg .r0 0xFFFF).setKbd [0xFF]) = some (0x00FF, .p, [], []) := by decide
theorem test_getc_waits : peek (fun t => (t.reg .r0, t.pc, t.hold)) ((start 0xF020).setReg .r0 0x1234) =
    some (0x1234, 0x3001, some (.within 0xF020 .getc)) := by decide
theorem test_out : peek (fun t => (t.out, t.reg .r0)) ((start 0xF021).setReg .r0 0x1241) = some ([0x41], 0x1241) := by decide
/-- The low bytes only, a cell `0x0100` being no terminator, over the end of the address space. -/
theorem test_puts : peek (fun t => (t.out, t.reg .r0)) ((((start 0xF022).setReg .r0 0xFFFF).memWrite 0xFFFF 0x6948).memWrite
    0x0000 0x0100) = some ([0x48, 0x00], 0xFFFF) := by decide
theorem test_inp : peek (fun t => (t.reg .r0, t.cc, t.kbd)) ((start 0xF023).setKbd [0x71]) = some (0x0071, .z, []) := by
  decide
theorem test_inp_echo : peek State.out ((start 0xF023).setKbd [0x71]) = some (Config.inPrompt ++ [0x71]) := rfl
theorem test_putsp_zero_bytes :
    peek State.out (((((start 0xF024).setReg .r0 0x4000).memWrite 0x4000 0x6548).memWrite 0x4001 0x0079).memWrite
      0x4002 0x4141) = some [0x48, 0x65, 0x79] ∧
    peek State.out ((((start 0xF024).setReg .r0 0x4000).memWrite 0x4000 0x4100).memWrite 0x4001 0x4242) = some [] := by decide
/-- 45_trap.md R129 (c): PUTS from `0xFE01` writes that cell, then the character waiting at
`0xFE02`, which it consumes, then `0xFE03`, and ends at the zero cell after it. -/
theorem test_puts_keyboard : peek (fun t => (t.out, t.kbd, t.hold))
    (((({ start 0xF022 with kbd := [0x61] }.setReg .r0 0xFE01).memWrite 0xFE01 0x0058).memWrite 0xFE03 0x0059)) =
    some ([0x58, 0x61, 0x59], [], none) := by decide
theorem test_putsp_keyboard_waits : peek (fun t => (t.out, t.hold))
    ((((start 0xF024).setReg .r0 0xFE01).memWrite 0xFE01 0x4241)) =
    some ([0x41, 0x42], some (.within 0xF024 (.putsp 0xFE02))) := by decide
theorem test_halt : peek (fun t => (t.run, t.pc, t.fault)) (start 0xF025) = some (.halted, 0x3001, none) := by decide
theorem test_trap_unknown : [0xF000, 0xF01F, 0xF026, 0xF0FF].map (fun w => peek State.fault (start w)) =
    [0xF000, 0xF01F, 0xF026, 0xF0FF].map fun w => some (some ⟨.illegalTrap, 0x3000, some w⟩) := by decide

/-! ### Faults and the fetch (sections 2.7, 2.8) -/

theorem test_rti : peek (fun t => (t.run, t.fault, t.pc)) (start 0x8ABC) =
    some (.faulted, some ⟨.illegalInstruction, 0x3000, some 0x8ABC⟩, 0x3001) := by decide
theorem test_reserved : peek (fun t => (t.run, t.fault, t.pc)) (startAt 0x4321 0xDFFF) =
    some (.faulted, some ⟨.illegalInstruction, 0x4321, some 0xDFFF⟩, 0x4322) := by decide
theorem test_fixed_bits : peek (fun t => (t.run, t.fault, t.pc)) (start 0xF125) =
    some (.faulted, some ⟨.illegalInstruction, 0x3000, some 0xF125⟩, 0x3001) := by decide
theorem test_fetch_keyboard : peek (fun t => (t.pc, t.kbd)) { State.reset with pc := 0xFE02, kbd := [0x25] } =
    some (0xFE03, []) := by decide
theorem test_fetch_waits : peek (fun t => (t.pc, t.hold)) { State.reset with pc := 0xFE02 } =
    some (0xFE02, some .fetch) := by decide
/-- 40_fetch_execute.md R72 (d), 92 D15: in Faulted pc is `ia + 1` and the record's address `ia`. -/
theorem test_fetch_fails : peek (fun t => (t.pc, t.fault)) { State.reset with pc := 0xFE02, kbdClosed := true } =
    some (0xFE03, some ⟨.consoleIOFailure, 0xFE02, none⟩) := by decide
theorem test_ldi_closed : peek (fun t => (t.fault, t.pc, t.cc)) (((start 0xA001).memWrite 0x3002 0xFE02).closeKeyboard) =
    some (some ⟨.consoleIOFailure, 0x3000, some 0xA001⟩, 0x3001, .z) := by decide

/-- The image of 20_memory.md R37: origin `0x3000`, then `0xF025`, `0x1234`, most significant byte first. -/
theorem test_image : imageWrites [0x30, 0x00, 0xF0, 0x25, 0x12, 0x34] = some [(0x3000, 0xF025), (0x3001, 0x1234)] := by decide
theorem test_image_odd : imageWrites [0x30, 0x00, 0xF0] = none := by decide
/-- "later loads may overwrite earlier ones" (20_memory.md R37). -/
theorem test_loaded : (State.resetWith 0x4000 [(0x3000, 0x1111), (0x3000, 0x2222)]).mem = [(0x3000, 0x2222)] := by decide
/-- Host moves: a character typed goes behind the others, and nowhere once the keyboard is closed (00_scope.md R8). -/
theorem test_typed : (((State.reset.typeChar 0x61).typeChar 0x62).closeKeyboard.typeChar 0x63).kbd = [0x61, 0x62] := by decide
/-- Writing zero takes a cell out of the list, and the list stays sorted. -/
theorem test_memory_canonical : (((State.reset.memWrite 0x0009 1).memWrite 0x0003 2).memWrite 0x0009 0).mem = [(3, 2)] := by
  decide

/-! ### Witnesses: for each obligation with hypotheses, states and operands that meet them -/

theorem witness_DecodeInvertsEncode : (Instr.trap 0x1F#8).wellFormed = true ∧ (Instr.trap 0x26#8).wellFormed = true ∧
    (Instr.jmp .r6).wellFormed = true := by decide

theorem witness_EncodeInvertsDecode : decode 0x1401 = .ok (.addReg .r2 .r0 .r1) := rfl

/-- Both clauses, a word that decodes and one that does not, the second after a wait in the fetch. -/
theorem witness_StepRunsTheDecodedInstruction :
    ((start 0x1401).run = .running ∧ memRead (start 0x1401).pc { start 0x1401 with hold := none } = .done 0x1401 (start 0x1401) ∧
      (start 0x1401).hold = none ∧ decode 0x1401 = .ok (.addReg .r2 .r0 .r1)) ∧
    (start 0x1408).run = .running ∧
      memRead (start 0x1408).pc { start 0x1408 with hold := none } = .done 0x1408 (start 0x1408) ∧
      { start 0x1408 with hold := some .fetch }.hold = some .fetch ∧ decode 0x1408 = .error .addFixedBits :=
  ⟨⟨rfl, rfl, rfl, rfl⟩, rfl, rfl, rfl, rfl⟩

theorem witness_PlainFetchRunsTheStoredInstruction : (start 0xE3FF).run = .running ∧ (start 0xE3FF).hold = none ∧
    isPlain (start 0xE3FF).pc = true ∧ decode ((start 0xE3FF).cell (start 0xE3FF).pc) = .ok (.lea .r1 0x1FF#9) :=
  ⟨rfl, rfl, by decide, rfl⟩

/-- The three clauses: a character, an empty keyboard, a closed one. -/
theorem witness_FetchAtTheKeyboardDataAddress : ∃ s : State, s.run = .running ∧ s.hold = none ∧ s.pc = 0xFE02 ∧
    s.kbd = [] ∧ s.kbdClosed = false ∧ (s.typeChar 0x25).kbd = 0x25 :: [] ∧ s.closeKeyboard.kbdClosed = true :=
  ⟨{ State.reset with pc := 0xFE02 }, by decide⟩

theorem witness_RunningProcessorHasFourOutcomes : (start 0xF020).Inv ∧ (start 0xF020).run = .running :=
  ⟨inv_running (by decide) rfl rfl rfl, rfl⟩

theorem witness_PlacedWordIsRunNext : State.reset.mem.wf = true ∧ decode (BitVec.ofNat 16 0x5020) = .ok (.andImm .r0 .r0 0#5) ∧
    isPlain State.reset.pc = true ∧ isPlain { State.reset with pc := 0xFE02 }.pc = false :=
  ⟨by decide, rfl, by decide, by decide⟩

/-- A step that executes, and a step of a processor that waits. -/
theorem witness_StepKeepsInv : ((start 0x1401).Inv ∧ ∃ t, step (start 0x1401) = .next t ∧ t.pc = 0x3001) ∧
    { start 0xF020 with hold := some (.within 0xF020 .getc), kbd := [0x41] }.Inv ∧
    ∃ t, step { start 0xF020 with hold := some (.within 0xF020 .getc), kbd := [0x41] } = .next t ∧ t.reg .r0 = 0x0041 :=
  ⟨⟨inv_running (by decide) rfl rfl rfl, step_of_peek (by decide)⟩, inv_getcWait (by decide) rfl rfl rfl,
    step_of_peek (by decide)⟩

theorem witness_HostMovesKeepInv : (start 0xF021).Inv := inv_running (by decide) rfl rfl rfl

theorem witness_MemoriesWithTheSameCellsAreEqual : ∃ m m' : Memory, m.wf = true ∧ m'.wf = true ∧ m ≠ [] ∧
    ∀ a, a < 65536 → m.read a = m'.read a :=
  ⟨[(3, 1), (65535, 2)], [(3, 1), (65535, 2)], by decide, by decide, by decide, fun _ _ => rfl⟩

/-- The four kinds of read: status, data with and without a character, a cell between the two. -/
theorem witness_ReadsGoThroughTheDeviceDecoder : Config.kbsrAddr = 0xFE00#16 ∧ Config.kbdrAddr = 0xFE02#16 ∧
    State.reset.kbd = [] ∧ State.reset.kbdClosed = false ∧ State.reset.closeKeyboard.kbdClosed = true ∧
    (State.reset.typeChar 0x41).kbd = 0x41#8 :: [] ∧ (0xFE01#16 ≠ 0xFE00#16 ∧ 0xFE01#16 ≠ 0xFE02#16) := by decide

theorem witness_WritesChangeOneCell : State.reset.mem.wf = true ∧ (start 0x1401).mem.wf = true := by decide

theorem witness_SignExtensionKeepsTheNumber :
    (sext 0x10#5).toNat = 0x10 + 65536 - 2 ^ 5 ∧ (sext 0x3FF#11).toNat = 0x3FF := by decide

/-- LD at the data address with a character there, and LDR at a cell. -/
theorem witness_LoadsWriteWhatTheyRead :
    ReadReady ({ State.reset with pc := 0xFE01, kbd := [0x61] }.pc + sext 1#9) { State.reset with pc := 0xFE01, kbd := [0x61] } ∧
    ReadReady (State.reset.reg .r2 + sext 0x3F#6) State.reset := by
  unfold ReadReady; decide

/-- The pointer a cell and the datum the keyboard, and the pointer the keyboard and the datum a cell. -/
theorem witness_LdiReadsThroughThePointer :
    (ReadReady 0x3002 (((start 0xA001).memWrite 0x3002 0xFE02).setKbd [0x61]) ∧
      readValue 0x3002 (((start 0xA001).memWrite 0x3002 0xFE02).setKbd [0x61]) = 0xFE02 ∧
      ReadReady 0xFE02 (afterRead 0x3002 (((start 0xA001).memWrite 0x3002 0xFE02).setKbd [0x61]))) ∧
    ReadReady 0xFE02 (State.reset.typeChar 0x61) ∧ readValue 0xFE02 (State.reset.typeChar 0x61) = 0x0061 ∧
      ReadReady 0x0061 (afterRead 0xFE02 (State.reset.typeChar 0x61)) := by
  unfold ReadReady; decide

/-- The four clauses, on one empty keyboard, open and closed. -/
theorem witness_LoadsWaitForOrFailWithoutACharacter : ∃ s : State, s.kbd = [] ∧ s.closeKeyboard.kbd = [] ∧
    s.pc + sext 1#9 = 0xFE02 ∧ s.reg .r2 + sext 2#6 = 0xFE02 ∧ isPlain (s.pc + sext 0#9) = true ∧
    s.cell (s.pc + sext 0#9) = 0xFE02 :=
  ⟨({ State.reset with pc := 0xFE01 }.setReg .r2 0xFE00).memWrite 0xFE01 0xFE02, by decide⟩

theorem witness_StoresWriteOneCell : (start 0x3202).mem.wf = true := by decide

/-- STI with a pointer in a cell; and with the keyboard as its pointer, with a character and without. -/
theorem witness_StiStoresThroughThePointer : ((start 0xB201).mem.wf = true ∧ ReadReady (0x3001 + sext 1#9) (start 0xB201)) ∧
    ∃ s : State, s.mem.wf = true ∧ s.pc + sext 1#9 = 0xFE02 ∧ s.kbd = [] ∧
      ReadReady (s.pc + sext 1#9) (s.typeChar 0x40) := by
  refine ⟨?_, { State.reset with pc := 0xFE01 }, ?_⟩ <;> unfold ReadReady <;> decide

/-- The three clauses, from one state. -/
theorem witness_StoredWordIsFetchedNext : ∃ s : State, s.mem.wf = true ∧ isPlain s.pc = true ∧
    (s.pc + sext 0#9 = s.pc ∧ ∃ t, exec (.st .r0 0#9) s = .next t ∧ t.cell 0x3001 = 0x1265) ∧
    (s.reg .r2 + sext 0#6 = s.pc ∧ ∃ t, exec (.str .r0 .r2 0#6) s = .next t ∧ t.cell 0x3001 = 0x1265) ∧
    isPlain (s.pc + sext 1#9) = true ∧ s.cell (s.pc + sext 1#9) = s.pc ∧
      ∃ t, exec (.sti .r0 1#9) s = .next t ∧ t.cell 0x3001 = 0x1265 :=
  ⟨((({ State.reset with pc := 0x3001 }.setReg .r0 0x1265).setReg .r2 0x3001).memWrite 0x3002 0x3001),
    by decide, by decide, ⟨by decide, exec_of_peek (by decide)⟩, ⟨by decide, exec_of_peek (by decide)⟩, by decide, by decide,
    exec_of_peek (by decide)⟩

/-- Source example S5: JSR at `0x3000`, `JMP R7` at `0x3002`. -/
theorem witness_CallThenReturnComesBack : ∃ s : State, s.run = .running ∧ s.hold = none ∧ isPlain s.pc = true ∧
    decode (s.cell s.pc) = .ok (.jsr 1#11) ∧ isPlain (s.pc + 1#16 + sext 1#11) = true ∧
    s.cell (s.pc + 1#16 + sext 1#11) = 0xC1C0 :=
  ⟨(start 0x4801).memWrite 0x3002 0xC1C0, rfl, rfl, by decide, rfl, by decide, by decide⟩

theorem witness_GetcReadsACharacter : (State.reset.typeChar 0x00).kbd = 0x00#8 :: [] := by decide

theorem witness_InPromptsReadsAndEchoes : (State.reset.typeChar 0x71).kbd = 0x71#8 :: [] ∧
    (State.reset.typeChar 0x71).outClosed = false := by decide

theorem witness_GetcAndInWaitOrFailWithoutACharacter : State.reset.kbd = [] ∧ State.reset.outClosed = false ∧
    State.reset.kbdClosed = false ∧ State.reset.closeKeyboard.kbd = [] ∧ State.reset.closeKeyboard.outClosed = false ∧
    State.reset.closeKeyboard.kbdClosed = true := by decide

theorem witness_OutWritesTheLowByte : State.reset.outClosed = false := by decide

/-- Two cells over the end of the address space, the first with a zero low byte, and a zero cell (section 2.6). -/
theorem witness_PutsWritesTheString : ∃ s : State, s.outClosed = false ∧ plainFrom (s.reg .r0) (2 + 1) = true ∧
    (∀ w ∈ cellsFrom s (s.reg .r0) 2, w ≠ 0x0000#16) ∧ s.cell (s.reg .r0 + BitVec.ofNat 16 2) = 0x0000#16 :=
  ⟨((State.reset.setReg .r0 0xFFFF).memWrite 0xFFFF 0x0100).memWrite 0x0000 0x0042, rfl, rfl,
    ball_of_all (p := fun w => w != 0x0000#16) rfl (by simp), rfl⟩

/-- Section 2.6: one full cell, then one whose high byte is zero; and no full cell, then one whose low byte is zero. -/
theorem witness_PutspWritesThePackedString : ∃ s : State, s.outClosed = false ∧ plainFrom (s.reg .r0) (1 + 1) = true ∧
    (∀ w ∈ cellsFrom s (s.reg .r0) 1, w.extractLsb' 0 8 ≠ 0x00#8 ∧ w.extractLsb' 8 8 ≠ 0x00#8) ∧
    (s.cell (s.reg .r0 + BitVec.ofNat 16 1)).extractLsb' 8 8 = 0x00#8 ∧
    ((s.setReg .r0 0x4002).cell ((s.setReg .r0 0x4002).reg .r0 + BitVec.ofNat 16 0)).extractLsb' 0 8 = 0x00#8 ∧
    plainFrom ((s.setReg .r0 0x4002).reg .r0) (0 + 1) = true :=
  ⟨(((State.reset.setReg .r0 0x4000).memWrite 0x4000 0x6548).memWrite 0x4001 0x0079).memWrite 0x4002 0x4100, rfl, rfl,
    ball_of_all (p := fun w => w.extractLsb' 0 8 != 0x00#8 && w.extractLsb' 8 8 != 0x00#8) rfl (by simp), rfl, rfl, rfl⟩

/-- Every clause: a wait, a plain cell zero and not, both values of the status, and the four states of the keyboard data. -/
theorem witness_PutsGoesCellByCell : ∃ s : State, s.run = .running ∧ s.hold = some (.within 0xF022 (.puts 0xFE02)) ∧
    s.outClosed = false ∧ isPlain 0xFE01 = true ∧ s.cell 0xFE01 ≠ 0 ∧ isPlain 0xFE03 = true ∧ s.cell 0xFE03 = 0 ∧
    s.kbd = [] ∧ s.kbdClosed = false ∧ s.closeKeyboard.kbd = [] ∧ s.closeKeyboard.kbdClosed = true ∧
    (s.typeChar 0x00).kbd = 0x00#8 :: [] ∧ (s.typeChar 0x61).kbd = 0x61#8 :: [] ∧ (s.typeChar 0x61).outClosed = false :=
  ⟨{ State.reset with hold := some (.within 0xF022 (.puts 0xFE02)) }.memWrite 0xFE01 0x0100, by decide⟩

/-- The status clause where a character waits: bit 15 is set whatever `KBSR_LOW` is, so the cell is not zero. -/
theorem witness_PutsGoesCellByCell_status (low : BitVec 15) : 0x8000#16 + low.setWidth 16 ≠ 0x0000#16 := by bv_omega

/-- Every clause: a wait, a plain cell with a zero low byte, with a zero high byte, with neither, and the keyboard data. -/
theorem witness_PutspGoesCellByCell : ∃ s : State, s.run = .running ∧ s.hold = some (.within 0xF024 (.putsp 0xFE02)) ∧
    s.outClosed = false ∧ isPlain 0xFE01 = true ∧ (s.cell 0xFE01).extractLsb' 0 8 = 0x00#8 ∧ isPlain 0xFE03 = true ∧
    (s.cell 0xFE03).extractLsb' 0 8 ≠ 0x00#8 ∧ (s.cell 0xFE03).extractLsb' 8 8 = 0x00#8 ∧ isPlain 0xFE04 = true ∧
    (s.cell 0xFE04).extractLsb' 0 8 ≠ 0x00#8 ∧ (s.cell 0xFE04).extractLsb' 8 8 ≠ 0x00#8 ∧
    s.kbd = [] ∧ s.kbdClosed = false ∧ s.closeKeyboard.kbd = [] ∧ s.closeKeyboard.kbdClosed = true ∧
    (s.typeChar 0x00).kbd = 0x00#8 :: [] ∧ (s.typeChar 0x61).kbd = 0x61#8 :: [] :=
  ⟨((({ State.reset with hold := some (.within 0xF024 (.putsp 0xFE02)) }.memWrite 0xFE01 0x4100).memWrite 0xFE03
    0x0079).memWrite 0xFE04 0x6548), by decide⟩

theorem witness_HaltStopsTheMachine : (start 0xF025).outClosed = false := by decide

theorem witness_UnrecognisedVectorFaults : (0x00#8).toNat < 0x20 ∧ (0x1F#8).toNat < 0x20 ∧ 0x25 < (0x26#8).toNat ∧
    0x25 < (0xFF#8).toNat := by decide

theorem witness_OutFailsOnAClosedDisplay : State.reset.closeDisplay.outClosed = true := by decide

/-- Every clause: a character, an empty keyboard open and closed, a string that is empty and one that is not, one at the
keyboard data, and the three resumed waits. -/
theorem witness_RoutinesFailOnAClosedDisplay : ∃ s : State, s.outClosed = true ∧ s.kbd = [] ∧ s.kbdClosed = false ∧
    s.closeKeyboard.outClosed = true ∧ s.closeKeyboard.kbd = [] ∧ s.closeKeyboard.kbdClosed = true ∧
    (s.typeChar 0x00).outClosed = true ∧ (s.typeChar 0x00).kbd = 0x00#8 :: [] ∧ (s.typeChar 0x61).kbd = 0x61#8 :: [] ∧
    readValue (s.reg .r0) s = 0 ∧ readValue ((s.setReg .r0 0x4000).reg .r0) (s.setReg .r0 0x4000) = 0x0041 ∧
    ReadReady (s.reg .r0) s ∧ ReadReady ((s.setReg .r0 0x4000).reg .r0) (s.setReg .r0 0x4000) ∧
    ReadReady ((s.setReg .r0 0xFE02).reg .r0) ((s.setReg .r0 0xFE02).typeChar 0x61) ∧ s.run = .running ∧
    ({ s with hold := some (.within 0xF023 .inp) }.hold = some (.within 0xF023 .inp)) ∧
    ({ s with hold := some (.within 0xF022 (.puts 0xFE02)) }.hold = some (.within 0xF022 (.puts 0xFE02))) ∧
    ({ s with hold := some (.within 0xF024 (.putsp 0xFE02)) }.hold = some (.within 0xF024 (.putsp 0xFE02))) := by
  refine ⟨(State.reset.memWrite 0x4000 0x0041).closeDisplay, rfl, rfl, rfl, rfl, rfl, rfl, rfl, rfl, rfl, by decide, by decide,
    ?_, ?_, ?_, rfl, rfl, rfl, rfl⟩ <;> unfold ReadReady <;> decide

theorem witness_ProcessorWaitsOnlyForAnEmptyKeyboard :
    ∃ t, step (start 0xF020) = .next t ∧ t.hold = some (.within 0xF020 .getc) := step_of_peek (by decide)

/-- The three clauses: a wait, a closed keyboard inside GETC, a closed keyboard in the fetch. -/
theorem witness_WaitLastsUntilTheHostMoves : ∃ s u : State,
    (s.Inv ∧ s.kbd = [] ∧ s.hold = some (.within 0xF020 .getc) ∧ s.kbdClosed = false) ∧
    (s.closeKeyboard.Inv ∧ s.closeKeyboard.kbd = [] ∧ s.closeKeyboard.hold = some (.within 0xF020 .getc) ∧
      s.closeKeyboard.kbdClosed = true) ∧
    u.Inv ∧ u.kbd = [] ∧ u.hold = some .fetch ∧ u.kbdClosed = true :=
  ⟨{ start 0xF020 with hold := some (.within 0xF020 .getc) },
    { State.reset with pc := 0xFE02, hold := some .fetch, kbdClosed := true },
    ⟨inv_getcWait (by decide) rfl rfl rfl, rfl, rfl, rfl⟩, ⟨inv_getcWait (by decide) rfl rfl rfl, rfl, rfl, rfl⟩,
    inv_fetchWait (by decide) rfl rfl rfl rfl, rfl, rfl, rfl⟩

theorem witness_WaitingThenTypingIsTypingThenRunning : Instr.getc.walks = false ∧ (start 0xF020).run = .running ∧
    (start 0xF020).hold = none ∧
    ∃ t, exec .getc (start 0xF020) = .next t ∧ t.hold = some (.within 0xF020 .getc) :=
  ⟨rfl, rfl, rfl, exec_of_peek (by decide)⟩

theorem witness_OnlyDestinationsAreWritten : Instr.getc.isTrap = true ∧
    ∃ t, exec .getc (State.reset.typeChar 0x41) = .next t ∧ t.reg .r0 = 0x0041 := ⟨rfl, exec_of_peek (by decide)⟩

/-- The clauses: an instruction outside the seven, a load that completes, a load that waits. -/
theorem witness_OnlySevenInstructionsWriteFlags :
    (Instr.getc.definesFlags = false ∧ ∃ t, exec .getc (State.reset.typeChar 0x41) = .next t ∧ t.cc = .z) ∧
    (Instr.ldr .r1 .r2 2#6).definesFlags = true ∧ State.reset.hold = none ∧ State.reset.run = .running ∧
    (∃ t, exec (.ldr .r1 .r2 2#6) State.reset = .next t ∧ (t.run, t.fault, t.hold) = (.running, none, none)) ∧
    ∃ t, exec (.ldr .r1 .r2 2#6) (State.reset.setReg .r2 0xFE00) = .next t ∧
      t.hold = some (.within 0x6282 (.load .r1 0xFE02)) :=
  ⟨⟨rfl, exec_of_peek (by decide)⟩, rfl, rfl, rfl, exec_of_peek (by decide), exec_of_peek (by decide)⟩

/-- A store through a pointer, and an instruction that stores nothing. -/
theorem witness_OnlyStoresWriteMemory :
    ((Instr.sti .r1 1#9).storeAddress ((start 0xB201).memWrite 0x3001 0x4000) = some 0x4000 ∧
      ∃ t, exec (.sti .r1 1#9) ((start 0xB201).memWrite 0x3001 0x4000) = .next t ∧ t.cell 0x4000 = 0) ∧
    Instr.putsp.storeAddress State.reset = none ∧ ∃ t, exec .putsp State.reset = .next t ∧ t.out = [] :=
  ⟨⟨by decide, exec_of_peek (by decide)⟩, rfl, exec_of_peek (by decide)⟩

theorem witness_OnlyTransfersMovePc : Instr.halt.isTransfer = false ∧
    ∃ t, exec .halt State.reset = .next t ∧ t.run = .halted := ⟨rfl, exec_of_peek (by decide)⟩

theorem witness_ConsoleOnlyMovesForward :
    ∃ t, step ((start 0xF020).setKbd [0x41, 0x42]) = .next t ∧ t.kbd = [0x42] := step_of_peek (by decide)

theorem witness_OnlyHaltHalts : (start 0xF025).run = .running ∧
    ∃ t, step (start 0xF025) = .next t ∧ t.run = .halted := ⟨rfl, step_of_peek (by decide)⟩

/-- The clauses: a word that faults, a fetch that fails, a wait that ends in a failure. -/
theorem witness_FaultRecordNamesTheFaultingWord :
    ((start 0xD000).Inv ∧ (start 0xD000).hold = none ∧ ∃ t, step (start 0xD000) = .next t ∧
      t.fault = some ⟨.illegalInstruction, 0x3000, some 0xD000⟩) ∧
    (∃ s : State, s.Inv ∧ s.hold = some .fetch ∧ ∃ t, step s = .next t ∧ t.fault = some ⟨.consoleIOFailure, 0xFE02, none⟩) ∧
    ∃ s : State, s.Inv ∧ s.hold = some (.within 0xF020 .getc) ∧ ∃ t, step s = .next t ∧
      t.fault = some ⟨.consoleIOFailure, 0x2FFF, some 0xF020⟩ :=
  ⟨⟨inv_running (by decide) rfl rfl rfl, rfl, step_of_peek (by decide)⟩,
    ⟨{ State.reset with pc := 0xFE02, hold := some .fetch, kbdClosed := true }, inv_fetchWait (by decide) rfl rfl rfl rfl, rfl,
      step_of_peek (by decide)⟩,
    { State.reset with hold := some (.within 0xF020 .getc), kbdClosed := true }, inv_getcWait (by decide) rfl rfl rfl, rfl,
    step_of_peek (by decide)⟩

theorem witness_OutputIsNeverObserved :
    ∃ t, step ((start 0xF021).setReg .r0 0x0041) = .next t ∧ t.out = [0x41] := step_of_peek (by decide)

/-- Two states that differ in the backing cell of the keyboard data. -/
theorem witness_BackingCellsAreNeverObserved : ∃ s s' : State, s.mem.wf = true ∧ s'.mem.wf = true ∧ s.mem ≠ s'.mem ∧
    SameButBacking s s' ∧ ∃ t, step s = .next t ∧ t.pc = 0x3001 := by
  refine ⟨State.reset, State.reset.memWrite 0xFE02 1, by decide, by decide, by decide, ⟨rfl, fun a ha => ?_⟩,
    step_of_peek (by decide)⟩
  have hne : ¬ (0xFE02 = a.toNat) := fun h => by
    have : a = 0xFE02#16 := BitVec.eq_of_toNat_eq h.symm
    subst this
    exact absurd ha (by decide)
  simp [State.cell, State.memWrite, State.reset, Memory.write, Memory.read, hne]

end Sys2Proof.Tests
end

section
/-! The condition flags by the value read as a number (10_state.md R17). -/

namespace Sys2Proof.Machine

theorem getLsbD_15_iff_toNat {v : Word} : v.getLsbD 15 = true ↔ 0x8000 ≤ v.toNat := by
  have hmsb : v.getLsbD 15 = decide (0x8000 ≤ v.toNat) := by
    rw [← BitVec.msb_eq_decide v, BitVec.msb_eq_getLsbD_last]
  rw [hmsb, decide_eq_true_iff]

theorem ccOf_eq_z {v : Word} : ccOf v = .z ↔ v = 0x0000#16 := by
  constructor
  · intro hz
    unfold ccOf at hz
    split at hz
    case isTrue => contradiction
    case isFalse => split at hz <;> [assumption; contradiction]
  · rintro rfl
    exact ccOf_zero

/-- P is what is left of the three flags. -/
theorem ccOf_eq_p {v : Word} : ccOf v = .p ↔ ccOf v ≠ .n ∧ ccOf v ≠ .z := by
  cases ccOf v <;> decide

theorem ccOf_eq_n_iff_toNat {v : Word} : ccOf v = .n ↔ 0x8000 ≤ v.toNat :=
  ccOf_eq_n.trans getLsbD_15_iff_toNat

theorem ccOf_eq_z_iff_toNat {v : Word} : ccOf v = .z ↔ v.toNat = 0 :=
  ccOf_eq_z.trans BitVec.toNat_inj.symm

theorem ccOf_eq_p_iff_toNat {v : Word} : ccOf v = .p ↔ 1 ≤ v.toNat ∧ v.toNat ≤ 0x7FFF := by
  rw [ccOf_eq_p, Ne, Ne, ccOf_eq_n_iff_toNat, ccOf_eq_z_iff_toNat]
  omega

/-- Settles O19: `setcc` stores `ccOf v`, and each flag's range is `ccOf`'s. -/
theorem flagsFollowTheSign : Obligations.FlagsFollowTheSign := fun s v => by
  rw [setcc_cc]
  exact ⟨ccOf_eq_n_iff_toNat, ccOf_eq_z_iff_toNat, ccOf_eq_p_iff_toNat⟩

end Sys2Proof.Machine
end

section
/-! Sign extension (30_encoding.md R54) of any field that fits in a word: what each bit of the word is, and its value. -/

namespace Sys2Proof.Machine

theorem getLsbD_sext {n k : Nat} (v : BitVec n) (hk : k < 16) :
    (sext v).getLsbD k = v.getLsbD (if k < n then k else n - 1) := by
  rw [sext, BitVec.getLsbD_signExtend, decide_eq_true hk, Bool.true_and, BitVec.msb_eq_getLsbD_last]
  exact (apply_ite v.getLsbD _ _ _).symm

theorem setWidth_sext {n : Nat} (v : BitVec n) (hn : n ≤ 16) : (sext v).setWidth n = v :=
  BitVec.eq_of_getLsbD_eq fun k hk => by
    rw [BitVec.getLsbD_setWidth, decide_eq_true hk, Bool.true_and, getLsbD_sext v (by omega), if_pos hk]

/-- The top bit is set exactly from `2 ^ (n - 1)` on, and a set one adds `2 ^ 16 - 2 ^ n`. -/
theorem toNat_sext {n : Nat} (v : BitVec n) (hn : n ≤ 16) :
    (sext v).toNat = if v.toNat < 2 ^ (n - 1) then v.toNat else v.toNat + 65536 - 2 ^ n := by
  have hfits : 2 ^ n ≤ 2 ^ 16 := Nat.pow_le_pow_right (by decide) hn
  rw [sext, BitVec.toNat_signExtend, BitVec.toNat_setWidth_of_le hn, BitVec.msb_eq_decide]
  by_cases hlow : v.toNat < 2 ^ (n - 1)
  · rw [if_pos hlow, decide_eq_false (Nat.not_le.mpr hlow), if_neg Bool.false_ne_true, Nat.add_zero]
  · rw [if_neg hlow, decide_eq_true (Nat.not_lt.mp hlow), if_pos rfl]
    omega

/-- Settles O20: each of the four widths fits in a word, and every field that fits is extended so. -/
theorem signExtensionKeepsTheNumber : Obligations.SignExtensionKeepsTheNumber := fun n hwidth v => by
  have hn : n ≤ 16 := by omega
  refine ⟨setWidth_sext v hn, fun k hnk hk => ?_, toNat_sext v hn⟩
  rw [getLsbD_sext v hk, if_neg (Nat.not_lt.mpr hnk)]

end Sys2Proof.Machine
end

section
/-! TRAP with a vector that has no routine (45_trap.md R128), and the frame that every TRAP keeps (R129). -/

namespace Sys2Proof.Machine

/-- What a routine leaves alone after the optional link, the TRAP leaves alone. -/
theorem ConsoleOnly.trapFrame {rs : List Reg} {s t : State} (h : ConsoleOnly rs s.trapLinked t) (hr7 : .r7 ∉ rs) :
    TrapFrame rs s t := by
  obtain ⟨hregs, hpc, hcc, hmem, hconsole⟩ := h
  refine ⟨fun r hr => ?_, ?_, hpc, hcc, cell_congr hmem, hconsole.kbdClosed, hconsole.outClosed⟩
  · rw [hregs r (List.not_mem_of_not_mem_cons hr), reg_trapLinked, if_neg (List.ne_of_not_mem_cons hr)]
  · rw [hregs .r7 hr7, reg_trapLinked, if_pos rfl]

/-- The opcode's bits and the vector's do not overlap, so the word is their sum. -/
theorem trapWord_eq_add (v : Byte) : trapWord v = 0xF000#16 + v.setWidth 16 := by
  apply BitVec.eq_of_toNat_eq
  have hhigh : (Opcode.trap.bits ++ 0b0000#4).toNat = 0xF0 := rfl
  rw [trapWord, BitVec.toNat_append, hhigh, ← Nat.shiftLeft_add_eq_or_of_lt v.isLt, BitVec.toNat_add,
    BitVec.toNat_setWidth_of_le (by decide), BitVec.toNat_ofNat]
  omega

theorem not_service_of_range {v : Byte} (h : v.toNat < 0x20 ∨ 0x25 < v.toNat) : isServiceVector v = false := by
  simp only [isServiceVector, BitVec.le_def, Bool.and_eq_false_iff, decide_eq_false_iff_not, BitVec.toNat_ofNat]
  omega

/-- Settles O43: the dispatcher raises IllegalTrap after the link, and raising keeps all but `run` and the record. -/
theorem unrecognisedVectorFaults : Obligations.UnrecognisedVectorFaults := fun s v hv => by
  have hword : encode (.trap v) = 0xF000#16 + v.setWidth 16 := trapWord_eq_add v
  rw [← hword]
  refine ⟨s.trapLinked.raiseAt .illegalTrap (encode (.trap v)), ?_, rfl, rfl, rfl, ⟨rfl, rfl, rfl, rfl⟩,
    (consoleOnly_raiseAt ..).trapFrame List.not_mem_nil⟩
  exact exec_next_iff.mpr (trapDispatch_other (not_service_of_range hv) ..).symm

end Sys2Proof.Machine
end

section
/-! The decoder and the encoder against each other: every format of 30_encoding.md R51 read back field by field, and
every word put together again from its fields. -/

namespace Sys2Proof

open BitVec Machine

theorem opcodeOf_encode (i : Instr) : opcodeOf (encode i) = i.opcode :=
  match i with
  | .addReg .. => Laws.OpcodeField.addReg ..
  | .addImm .. => Laws.OpcodeField.addImm ..
  | .andReg .. => Laws.OpcodeField.andReg ..
  | .andImm .. => Laws.OpcodeField.andImm ..
  | .not .. => Laws.OpcodeField.not ..
  | .ld .. => Laws.OpcodeField.ld ..
  | .ldi .. => Laws.OpcodeField.ldi ..
  | .ldr .. => Laws.OpcodeField.ldr ..
  | .lea .. => Laws.OpcodeField.lea ..
  | .st .. => Laws.OpcodeField.st ..
  | .sti .. => Laws.OpcodeField.sti ..
  | .str .. => Laws.OpcodeField.str ..
  | .br .. => Laws.OpcodeField.br ..
  | .jsr .. => Laws.OpcodeField.jsr ..
  | .jsrr .. => Laws.OpcodeField.jsrr ..
  | .jmp .. => Laws.OpcodeField.jmp ..
  | .trap .. => Laws.OpcodeField.trap ..
  | .rti .. => Laws.OpcodeField.rti ..
  | .reserved .. => Laws.OpcodeField.reserved ..
  | .ret | .getc | .out | .puts | .inp | .putsp | .halt => rfl

theorem ofBool_beq_one (b : Bool) : (ofBool b == 1#1) = b := by cases b <;> rfl

/-- The decoder of R56 reads every operand back from its place in the format, and finds the fixed bits right. -/
theorem decodeR56_encode (i : Instr) : decodeR56 (encode i) = .ok i.canonical := by
  have hop := opcodeOf_encode i
  unfold decodeR56
  rw [hop]
  cases i with
  | ret | getc | out | puts | inp | putsp | halt => rfl
  | addReg | addImm | andReg | andImm | not | jsr | jsrr | jmp | trap =>
    unfold encode Instr.opcode
    simp (disch := omega) only [trapWord, field11_9, field8_6, field2_0, getLsbD_eq_extractLsb',
      extractLsb'_append_eq_of_le, extractLsb'_append_eq_of_add_le, extractLsb'_eq_self, Nat.reduceSub, Nat.sub_self,
      Reg.ofBits_bits, BitVec.reduceExtractLsb']
    rfl
  | ld | ldi | ldr | lea | st | sti | str | br | rti | reserved =>
    unfold encode Instr.opcode
    simp (disch := omega) only [field11_9, field8_6, getLsbD_eq_extractLsb', extractLsb'_append_eq_of_le,
      extractLsb'_append_eq_of_add_le, extractLsb'_eq_self, Nat.reduceSub, Nat.sub_self, Reg.ofBits_bits,
      ofBool_beq_one, Instr.canonical]

/-- RET and the routines' names come back from the first names (30_encoding.md R63). -/
theorem named_canonical {i : Instr} (h : i.wellFormed = true) : i.canonical.named = i := by
  cases i with
  | jmp base => exact Laws.RowName.jmp base h
  | trap v => exact Laws.RowName.trap v h
  | _ => rfl

theorem decode_of_decodeR56 {ir : Word} {i : Instr} (h : decodeR56 ir = .ok i) : decode ir = .ok i.named := by
  rw [decode, h]; rfl

/-- Settles O1: the first name is read from the word, and a well-formed instruction is called back by its row's name. -/
theorem decodeInvertsEncode : Obligations.DecodeInvertsEncode := fun i hwf => by
  rw [decode_of_decodeR56 (decodeR56_encode i), named_canonical hwf]

/-! ### A word from its fields -/

theorem bits_opcodeOf {ir : Word} {op : Opcode} (h : opcodeOf ir = op) : op.bits = ir.extractLsb' 12 4 := by
  rw [← h, opcodeOf, Opcode.bits_ofBits]

theorem bits_field11_9 (ir : Word) : (field11_9 ir).bits = ir.extractLsb' 9 3 := Reg.bits_ofBits _

theorem bits_field8_6 (ir : Word) : (field8_6 ir).bits = ir.extractLsb' 6 3 := Reg.bits_ofBits _

theorem bits_field2_0 (ir : Word) : (field2_0 ir).bits = ir.extractLsb' 0 3 := Reg.bits_ofBits _

theorem ofBool_getLsbD (ir : Word) (k : Nat) : ofBool (ir.getLsbD k) = ir.extractLsb' k 1 := by
  rw [getLsbD_eq_extractLsb']
  generalize ir.extractLsb' k 1 = b
  revert b
  decide

theorem extract_bit_true {ir : Word} {k : Nat} (h : ir.getLsbD k = true) : 1#1 = ir.extractLsb' k 1 := by
  rw [← ofBool_getLsbD, h]; rfl

/-- The three zero bits of the register forms: the mode bit and two fixed ones. -/
theorem extract_three_zero {ir : Word} (lo : Nat) (hbit : ¬ ir.getLsbD (lo + 2) = true)
    (h : ir.extractLsb' lo 2 = 0b00#2) : 0b000#3 = ir.extractLsb' lo 3 := by
  have hmode : ir.extractLsb' (lo + 2) 1 = 0b0#1 := by
    rw [← ofBool_getLsbD, Bool.not_eq_true _ |>.mp hbit]; rfl
  have hsplit : ir.extractLsb' (lo + 2) 1 ++ ir.extractLsb' lo 2 = ir.extractLsb' lo 3 :=
    extractLsb'_append_extractLsb'_eq_extractLsb' rfl
  rw [hmode, h] at hsplit
  exact hsplit

/-- What R56 decodes, put together again in the format's order, is the word: the fields and the fixed bits cover it. -/
theorem encode_of_decodeR56 {ir : Word} {i : Instr} (h : decodeR56 ir = .ok i) : encode i = ir := by
  unfold decodeR56 at h
  cases hop : opcodeOf ir with
  | br | ld | st | ldr | str | rti | ldi | sti | reserved | lea =>
    simp only [hop] at h
    cases h
    unfold encode
    simp (disch := omega) only [bits_opcodeOf hop, bits_field11_9, bits_field8_6, ofBool_getLsbD,
      extractLsb'_append_extractLsb'_eq_extractLsb', extractLsb'_eq_self]
  | add | and =>
    simp only [hop] at h
    split_ifs at h with hmode hfixed <;> cases h <;> unfold encode
    · simp (disch := omega) only [bits_opcodeOf hop, bits_field11_9, bits_field8_6, extract_bit_true hmode,
        extractLsb'_append_extractLsb'_eq_extractLsb', extractLsb'_eq_self]
    · simp (disch := omega) only [bits_opcodeOf hop, bits_field11_9, bits_field8_6, bits_field2_0,
        extract_three_zero 3 hmode hfixed, extractLsb'_append_extractLsb'_eq_extractLsb', extractLsb'_eq_self]
  | jsr =>
    simp only [hop] at h
    split_ifs at h with hmode hfixed <;> cases h <;> unfold encode
    · simp (disch := omega) only [bits_opcodeOf hop, extract_bit_true hmode,
        extractLsb'_append_extractLsb'_eq_extractLsb', extractLsb'_eq_self]
    · simp (disch := omega) only [bits_opcodeOf hop, bits_field8_6, extract_three_zero 9 hmode hfixed.1, ← hfixed.2,
        extractLsb'_append_extractLsb'_eq_extractLsb', extractLsb'_eq_self]
  | not | trap =>
    simp only [hop] at h
    split_ifs at h with hfixed
    cases h
    unfold encode
    simp (disch := omega) only [trapWord, bits_opcodeOf hop, bits_field11_9, bits_field8_6, ← hfixed,
      extractLsb'_append_extractLsb'_eq_extractLsb', extractLsb'_eq_self]
  | jmp =>
    simp only [hop] at h
    split_ifs at h with hfixed
    cases h
    unfold encode
    simp (disch := omega) only [bits_opcodeOf hop, bits_field8_6, ← hfixed.1, ← hfixed.2,
      extractLsb'_append_extractLsb'_eq_extractLsb', extractLsb'_eq_self]

/-- A TRAP vector's routine name, in seven cases (45_trap.md R121). -/
theorem serviceName_elim {motive : Byte → Instr → Prop} (v : Byte) (getc : motive 0x20#8 .getc)
    (out : motive 0x21#8 .out) (puts : motive 0x22#8 .puts) (inp : motive 0x23#8 .inp) (putsp : motive 0x24#8 .putsp)
    (halt : motive 0x25#8 .halt) (other : isServiceVector v = false → motive v (.trap v)) :
    motive v (serviceName v) := by
  unfold serviceName
  split_ifs with h0 h1 h2 h3 h4 h5
  · exact h0 ▸ getc
  · exact h1 ▸ out
  · exact h2 ▸ puts
  · exact h3 ▸ inp
  · exact h4 ▸ putsp
  · exact h5 ▸ halt
  · exact other (not_service_iff.2 ⟨h0, h1, h2, h3, h4, h5⟩)

theorem canonical_named (i : Instr) : i.named.canonical = i.canonical := by
  cases i with
  | jmp base => cases base <;> rfl
  | trap v => exact serviceName_elim (motive := fun w j => j.canonical = .trap w) v rfl rfl rfl rfl rfl rfl fun _ => rfl
  | _ => rfl

theorem encode_canonical (i : Instr) : encode i.canonical = encode i := by cases i <;> rfl

theorem encode_named (i : Instr) : encode i.named = encode i := by
  rw [← encode_canonical i.named, canonical_named, encode_canonical]

theorem wellFormed_named (i : Instr) : i.named.wellFormed = true := by
  cases i with
  | jmp base => cases base <;> rfl
  | trap v =>
    refine serviceName_elim (motive := fun _ j => j.wellFormed = true) v rfl rfl rfl rfl rfl rfl fun h => ?_
    rw [Instr.wellFormed, h]
    rfl
  | _ => rfl

/-- A well-formed instruction has its row's own name already. -/
theorem named_of_wellFormed {i : Instr} (h : i.wellFormed = true) : i.named = i := by
  cases i with
  | jmp base => exact Laws.RowName.jmp base h
  | trap v => exact Laws.RowName.trap v h
  | _ => rfl

theorem decode_eq_ok_iff {ir : Word} {i : Instr} : decode ir = .ok i ↔ ∃ j, decodeR56 ir = .ok j ∧ j.named = i := by
  rw [decode]
  cases decodeR56 ir <;> simp [Except.map]

/-- Settles O2: every field and every fixed bit of the word is in the encoding, and `named` gives the row's own name. -/
theorem encodeInvertsDecode : Obligations.EncodeInvertsDecode := fun ir i h => by
  obtain ⟨j, hj, rfl⟩ := decode_eq_ok_iff.1 h
  exact ⟨(encode_named j).trans (encode_of_decodeR56 hj), wellFormed_named j⟩

/-! ### Second names -/

/-- A second name runs as the first. -/
theorem exec_canonical (i : Instr) (s : State) : exec i s = exec i.canonical s := by
  cases i with
  | getc => exact congrArg Host.Outcome.next (trapDispatch_getc ..).symm
  | out => exact congrArg Host.Outcome.next (trapDispatch_out ..).symm
  | puts => exact congrArg Host.Outcome.next (trapDispatch_puts ..).symm
  | inp => exact congrArg Host.Outcome.next (trapDispatch_inp ..).symm
  | putsp => exact congrArg Host.Outcome.next (trapDispatch_putsp ..).symm
  | halt => exact congrArg Host.Outcome.next (trapDispatch_halt ..).symm
  | _ => rfl

/-- R56 knows no second names: its result is the first name of the instruction whose word it read. -/
theorem canonical_of_decodeR56 {ir : Word} {i : Instr} (h : decodeR56 ir = .ok i) : i.canonical = i := by
  have hagain := decodeR56_encode i
  rw [encode_of_decodeR56 h, h] at hagain
  exact (Except.ok.inj hagain).symm

/-- Settles O5: a second name runs as its first name, has its word, and is what `named` added to R56's result. -/
theorem secondNamesAreNamesOnly : Obligations.SecondNamesAreNamesOnly := by
  refine ⟨exec_canonical, encode_canonical, fun ir => ?_⟩
  rw [decode]
  cases h : decodeR56 ir with
  | error r => rfl
  | ok i => exact congrArg Except.ok ((canonical_named i).trans (canonical_of_decodeR56 h))

/-- Settles O4: closed words, decoded by evaluation. -/
theorem specWordsDecode : Obligations.SpecWordsDecode := by
  unfold Obligations.SpecWordsDecode
  decide

/-! ### The fixed bits (30_encoding.md R58) -/

theorem mask_bits : ∀ b m m' v v' : Bool, (m && m') = false → (v && m) = v → (v' && m') = v' →
    ((b && (m || m')) = (v || v') ↔ (b && m) = v ∧ (b && m') = v') := by decide

/-- Two masks without a common bit are compared apart. -/
theorem and_or_masks (ir : Word) {m m' v v' : Word} (hdisjoint : m &&& m' = 0#16) (hv : v &&& m = v)
    (hv' : v' &&& m' = v') : ir &&& (m ||| m') = v ||| v' ↔ ir &&& m = v ∧ ir &&& m' = v' := by
  simp only [eq_of_getLsbD_eq_iff, getLsbD_and, getLsbD_or, getLsbD_zero] at *
  simp only [← forall_and]
  exact forall₂_congr fun k hk => mask_bits _ _ _ _ _ (hdisjoint k hk) (hv k hk) (hv' k hk)

/-- A mask that covers one field is compared with the field's value in its place. -/
theorem and_fieldMask (ir : Word) (lo : Nat) {n : Nat} (v : BitVec n) (hfits : lo + n ≤ 16) :
    ir &&& (allOnes n).setWidth 16 <<< lo = v.setWidth 16 <<< lo ↔ ir.extractLsb' lo n = v := by
  simp only [eq_of_getLsbD_eq_iff, getLsbD_and, getLsbD_shiftLeft, getLsbD_setWidth, getLsbD_allOnes,
    getLsbD_extractLsb']
  constructor
  · intro h k hk
    have := h (lo + k) (by omega)
    simpa [show lo + k < 16 by omega, show k < 16 by omega, hk] using this
  · intro h k hk
    by_cases hlo : k < lo
    · simp [hlo]
    · by_cases hn : k - lo < n
      · have := h (k - lo) hn
        rw [Nat.add_sub_of_le (by omega)] at this
        simpa [hk, hlo, hn, show k - lo < 16 by omega] using this
      · simp [hn, getLsbD_of_ge v (k - lo) (by omega)]

theorem opcodeOf_eq_iff {ir : Word} {op : Opcode} : opcodeOf ir = op ↔ ir.extractLsb' 12 4 = op.bits :=
  ⟨fun h => (bits_opcodeOf h).symm, fun h => by rw [opcodeOf, h, Opcode.ofBits_bits]⟩

theorem opcode_mask (ir : Word) (op : Opcode) :
    ir &&& 0xF000#16 = op.bits.setWidth 16 <<< 12 ↔ opcodeOf ir = op :=
  (and_fieldMask ir 12 op.bits (by decide)).trans opcodeOf_eq_iff.symm

theorem getLsbD_eq_false_iff {ir : Word} {k : Nat} : ir.getLsbD k = false ↔ ir.extractLsb' k 1 = 0b0#1 := by
  rw [← ofBool_getLsbD]
  cases ir.getLsbD k <;> decide

theorem exists_ite_error {p : Prop} [Decidable p] {i : Instr} {e : Reject} :
    (∃ r, (if p then Except.ok i else Except.error e) = Except.error r) ↔ ¬p := by
  by_cases hp : p <;> simp [hp]

/-- Where R56 refuses a word: by the opcode, the mode bit where there is one, and the fixed bits. -/
theorem decodeR56_error_iff (ir : Word) : (∃ r, decodeR56 ir = .error r) ↔
    ((opcodeOf ir = .add ∧ ir.getLsbD 5 = false ∨ opcodeOf ir = .and ∧ ir.getLsbD 5 = false) ∧
      ¬ir.extractLsb' 3 2 = 0b00#2) ∨
    (opcodeOf ir = .not ∧ ¬ir.extractLsb' 0 6 = 0b111111#6) ∨
    ((opcodeOf ir = .jsr ∧ ir.getLsbD 11 = false) ∧
      ¬(ir.extractLsb' 9 2 = 0b00#2 ∧ ir.extractLsb' 0 6 = 0b000000#6)) ∨
    (opcodeOf ir = .jmp ∧ ¬(ir.extractLsb' 9 3 = 0b000#3 ∧ ir.extractLsb' 0 6 = 0b000000#6)) ∨
    (opcodeOf ir = .trap ∧ ¬ir.extractLsb' 8 4 = 0b0000#4) := by
  unfold decodeR56
  cases opcodeOf ir with
  | add | and =>
    cases ir.getLsbD 5 with
    | true => simp
    | false => simp [exists_ite_error]
  | jsr =>
    cases ir.getLsbD 11 with
    | true => simp
    | false => simp [exists_ite_error]
  | not | jmp | trap => simp [exists_ite_error]
  | br | ld | st | ldr | str | rti | ldi | sti | reserved | lea => simp

theorem decode_error_iff (ir : Word) : (∃ r, decode ir = .error r) ↔ ∃ r, decodeR56 ir = .error r := by
  rw [decode]
  cases decodeR56 ir <;> simp [Except.map]

theorem field_and_mask {n : Nat} (v : BitVec n) (lo : Nat) :
    v.setWidth 16 <<< lo &&& (allOnes n).setWidth 16 <<< lo = v.setWidth 16 <<< lo := by
  rw [← shiftLeft_and_distrib, ← setWidth_and, and_allOnes]

/-- Two fields, one above the other, under one mask. -/
theorem and_twoFieldMask {n k : Nat} (ir : Word) (hi lo : Nat) (v : BitVec n) (w : BitVec k) (hhi : hi + n ≤ 16)
    (hlo : lo + k ≤ hi) :
    ir &&& ((allOnes n).setWidth 16 <<< hi ||| (allOnes k).setWidth 16 <<< lo) =
      v.setWidth 16 <<< hi ||| w.setWidth 16 <<< lo ↔
    ir.extractLsb' hi n = v ∧ ir.extractLsb' lo k = w := by
  have hdisjoint : (allOnes n).setWidth 16 <<< hi &&& (allOnes k).setWidth 16 <<< lo = 0#16 := by
    apply eq_of_getLsbD_eq
    intro i _
    simp only [getLsbD_and, getLsbD_shiftLeft, getLsbD_setWidth, getLsbD_allOnes, getLsbD_zero]
    grind
  rw [and_or_masks ir hdisjoint (field_and_mask ..) (field_and_mask ..), and_fieldMask _ _ _ hhi,
    and_fieldMask _ _ _ (by omega)]

/-- An opcode with a mode bit that is clear. -/
theorem opcode_mode_mask (ir : Word) (op : Opcode) (k : Nat) (hk : k + 1 ≤ 12) :
    ir &&& ((allOnes 4).setWidth 16 <<< 12 ||| (allOnes 1).setWidth 16 <<< k) =
      op.bits.setWidth 16 <<< 12 ||| (0b0#1).setWidth 16 <<< k ↔
    opcodeOf ir = op ∧ ir.getLsbD k = false := by
  rw [opcodeOf_eq_iff, getLsbD_eq_false_iff]
  exact and_twoFieldMask ir 12 k op.bits 0b0#1 (by decide) hk

/-- Settles O3: the masks of R58 are the decoder's own tests. -/
theorem wordsWithAWrongFixedBitAreIllegal : Obligations.WordsWithAWrongFixedBitAreIllegal := fun ir => by
  have hadd : ir &&& 0xF020#16 = 0x1000#16 ↔ opcodeOf ir = .add ∧ ir.getLsbD 5 = false :=
    opcode_mode_mask ir .add 5 (by decide)
  have hand : ir &&& 0xF020#16 = 0x5000#16 ↔ opcodeOf ir = .and ∧ ir.getLsbD 5 = false :=
    opcode_mode_mask ir .and 5 (by decide)
  have hjsrr : ir &&& 0xF800#16 = 0x4000#16 ↔ opcodeOf ir = .jsr ∧ ir.getLsbD 11 = false :=
    opcode_mode_mask ir .jsr 11 (by decide)
  have hnot : ir &&& 0xF000#16 = 0x9000#16 ↔ opcodeOf ir = .not := opcode_mask ir .not
  have hjmp : ir &&& 0xF000#16 = 0xC000#16 ↔ opcodeOf ir = .jmp := opcode_mask ir .jmp
  have htrap : ir &&& 0xF000#16 = 0xF000#16 ↔ opcodeOf ir = .trap := opcode_mask ir .trap
  have hregFixed : ir &&& 0x0018#16 = 0x0000#16 ↔ ir.extractLsb' 3 2 = 0b00#2 :=
    and_fieldMask ir 3 0b00#2 (by decide)
  have hnotFixed : ir &&& 0x003F#16 = 0x003F#16 ↔ ir.extractLsb' 0 6 = 0b111111#6 :=
    and_fieldMask ir 0 0b111111#6 (by decide)
  have hjsrrFixed : ir &&& 0x063F#16 = 0x0000#16 ↔ ir.extractLsb' 9 2 = 0b00#2 ∧ ir.extractLsb' 0 6 = 0b000000#6 :=
    and_twoFieldMask ir 9 0 0b00#2 0b000000#6 (by decide) (by decide)
  have hjmpFixed : ir &&& 0x0E3F#16 = 0x0000#16 ↔ ir.extractLsb' 9 3 = 0b000#3 ∧ ir.extractLsb' 0 6 = 0b000000#6 :=
    and_twoFieldMask ir 9 0 0b000#3 0b000000#6 (by decide) (by decide)
  have htrapFixed : ir &&& 0x0F00#16 = 0x0000#16 ↔ ir.extractLsb' 8 4 = 0b0000#4 :=
    and_fieldMask ir 8 0b0000#4 (by decide)
  rw [decode_error_iff, decodeR56_error_iff, hadd, hand, hjsrr, hnot, hjmp, htrap, Ne, Ne, Ne, Ne, Ne, hregFixed,
    hnotFixed, hjsrrFixed, hjmpFixed, htrapFixed]

end Sys2Proof
end

section
/-! The frame of every instruction: what it leaves alone (10_state.md R11, R13, R16; 20_memory.md R39), said once for
`execState` and for going on after a wait. -/

namespace Sys2Proof.Machine

/-! ### Loads -/

/-- `t` is `s` but for the console, the controller, the flags and `dr`: what a load may change. -/
structure LoadOnly (dr : Reg) (s t : State) : Prop where
  regs : SameRegsBut [dr] s t
  pc : t.pc = s.pc
  mem : t.mem = s.mem
  console : ConsoleForward s t

theorem ConsoleOnly.loadOnly {dr : Reg} {s t : State} (h : ConsoleOnly [] s t) : LoadOnly dr s t :=
  ⟨h.any.regs, h.pc, h.mem, h.console⟩

theorem LoadOnly.trans {dr : Reg} {s t u : State} (h : LoadOnly dr s t) (h' : LoadOnly dr t u) : LoadOnly dr s u :=
  ⟨fun r hr => (h'.regs r hr).trans (h.regs r hr), h'.pc.trans h.pc, h'.mem.trans h.mem, h.console.trans h'.console⟩

theorem loadOnly_define (s : State) (dr : Reg) (v : Word) : LoadOnly dr s (s.define dr v) :=
  ⟨fun r hr => by rw [reg_define, if_neg (List.ne_of_not_mem_cons hr)], rfl, rfl, .of_same ⟨rfl, rfl, rfl, rfl⟩⟩

theorem loadInto_only (ir : Word) (dr : Reg) (a : Word) (s : State) : LoadOnly dr s (loadInto ir dr a s) := by
  unfold loadInto
  exact memRead_elim (fun _ => (consoleOnly_afterRead a s).loadOnly.trans (loadOnly_define ..))
    (fun _ _ _ => (consoleOnly_waitAt ..).loadOnly) (fun _ _ _ => (consoleOnly_raiseAt ..).loadOnly)

theorem loadIndirect_only (ir : Word) (dr : Reg) (a : Word) (s : State) : LoadOnly dr s (loadIndirect ir dr a s) := by
  unfold loadIndirect
  exact memRead_elim (fun _ => (consoleOnly_afterRead a s).loadOnly.trans (loadInto_only ..))
    (fun _ _ _ => (consoleOnly_waitAt ..).loadOnly) (fun _ _ _ => (consoleOnly_raiseAt ..).loadOnly)

/-! ### TRAP -/

theorem trapDispatch_only (v : Byte) (ir : Word) (s : State) :
    ∃ rs, (Instr.trap v).dests = rs ++ [.r7] ∧ .r7 ∉ rs ∧ ConsoleOnly rs s (trapDispatch v ir s) := by
  refine trapDispatch_elim
    (motive := fun v t => ∃ rs, (Instr.trap v).dests = rs ++ [.r7] ∧ .r7 ∉ rs ∧ ConsoleOnly rs s t)
    v ir s ?_ ?_ ?_ ?_ ?_ ?_ fun hv => ?_
  · exact ⟨[.r0], rfl, by decide, getcRoutine_only ..⟩
  · exact ⟨[], rfl, by decide, outRoutine_only ..⟩
  · exact ⟨[], rfl, by decide, putsRoutine_only ..⟩
  · exact ⟨[.r0], rfl, by decide, inpRoutine_only ..⟩
  · exact ⟨[], rfl, by decide, putspRoutine_only ..⟩
  · exact ⟨[], rfl, by decide, haltRoutine_only ..⟩
  · obtain ⟨hgetc, -, -, hinp, -, -⟩ := not_service_iff.1 hv
    exact ⟨[], by simp [Instr.dests, hgetc, hinp], by decide, consoleOnly_raiseAt ..⟩

/-- After the optional link TRAP writes no register but R0, and only as GETC or IN. -/
theorem execState_trap {i : Instr} (h : i.isTrap = true) (s : State) :
    ∃ rs, i.dests = rs ++ [.r7] ∧ .r7 ∉ rs ∧ ConsoleOnly rs s.trapLinked (execState i s) := by
  cases i with
  | trap v => exact trapDispatch_only v ..
  | getc => exact ⟨[.r0], rfl, by decide, getcRoutine_only ..⟩
  | out => exact ⟨[], rfl, by decide, outRoutine_only ..⟩
  | puts => exact ⟨[], rfl, by decide, putsRoutine_only ..⟩
  | inp => exact ⟨[.r0], rfl, by decide, inpRoutine_only ..⟩
  | putsp => exact ⟨[], rfl, by decide, putspRoutine_only ..⟩
  | halt => exact ⟨[], rfl, by decide, haltRoutine_only ..⟩
  | _ => cases h

/-! ### Every instruction -/

/-- What instruction `i`, run in `s`, leaves alone in `t`. -/
structure ExecFrame (i : Instr) (s t : State) : Prop where
  regs : SameRegsBut i.dests s t
  pc : i.isTransfer = false → t.pc = s.pc
  cc : i.definesFlags = false → t.cc = s.cc
  cells : ∀ a, i.storeAddress s = some a → ∀ b, b ≠ a → t.cell b = s.cell b
  mem : i.storeAddress s = none → t.mem = s.mem
  memWf : s.mem.wf = true → t.mem.wf = true
  console : ConsoleForward s t

section
variable {i : Instr} {s t : State}

/-- An instruction that stores to no address leaves memory as it is. -/
theorem ExecFrame.of_sameMem (hstore : i.storeAddress s = none) (hmem : t.mem = s.mem) (regs : SameRegsBut i.dests s t)
    (pc : i.isTransfer = false → t.pc = s.pc) (cc : i.definesFlags = false → t.cc = s.cc)
    (console : ConsoleForward s t) : ExecFrame i s t :=
  ⟨regs, pc, cc, fun a ha => by simp [hstore] at ha, fun _ => hmem, fun hwf => by rwa [hmem], console⟩

theorem ExecFrame.of_consoleOnly {rs : List Reg} (hstore : i.storeAddress s = none) (h : ConsoleOnly rs s t)
    (hrs : ∀ r ∈ rs, r ∈ i.dests) : ExecFrame i s t :=
  .of_sameMem hstore h.mem (h.mono hrs).regs (fun _ => h.pc) (fun _ => h.cc) h.console

theorem ExecFrame.of_loadOnly {dr : Reg} (hstore : i.storeAddress s = none) (hflags : i.definesFlags = true)
    (hdr : i.dests = [dr]) (h : LoadOnly dr s t) : ExecFrame i s t :=
  .of_sameMem hstore h.mem (hdr ▸ h.regs) (fun _ => h.pc) (fun hf => by simp [hflags] at hf) h.console

/-- A transfer changes pc, and R7 where it links. -/
theorem ExecFrame.of_transfer {rs : List Reg} (hstore : i.storeAddress s = none) (htransfer : i.isTransfer = true)
    (h : ConsoleOnly rs s t) (hdests : i.dests = rs) (target : Word) : ExecFrame i s (t.setPc target) :=
  .of_sameMem hstore h.mem (hdests ▸ h.regs) (fun hp => by simp [htransfer] at hp) (fun _ => h.cc)
    (h.console.trans (.of_same ⟨rfl, rfl, rfl, rfl⟩))

/-- A store writes the cell at its address, after at most a read. -/
theorem ExecFrame.of_store {u : State} {a : Word} (hstore : i.storeAddress s = some a) (h : ConsoleOnly [] s u)
    (v : Word) : ExecFrame i s (u.memWrite a v) where
  regs := h.any.regs
  pc _ := h.pc
  cc _ := h.cc
  cells b hb c hc := by
    obtain rfl : a = b := Option.some.inj (hstore.symm.trans hb)
    rw [cell_memWrite_other u v hc, cell_congr h.mem]
  mem hn := by simp [hstore] at hn
  memWf hwf := memWrite_wf u (by rwa [h.mem]) a v
  console := h.console.trans (.of_same ⟨rfl, rfl, rfl, rfl⟩)

end

theorem storeAddress_of_isTrap {i : Instr} (h : i.isTrap = true) (s : State) : i.storeAddress s = none := by
  cases i with
  | trap | getc | out | puts | inp | putsp | halt => rfl
  | _ => cases h

theorem ExecFrame.of_trap {i : Instr} (h : i.isTrap = true) (s : State) : ExecFrame i s (execState i s) := by
  obtain ⟨rs, hdests, -, honly⟩ := execState_trap h s
  have hlink : ConsoleOnly i.dests s s.trapLinked := (consoleOnly_setReg s .r7 _).mono (by simp [hdests])
  have hroutine : ConsoleOnly i.dests s.trapLinked (execState i s) := honly.mono (by simp +contextual [hdests])
  exact .of_consoleOnly (storeAddress_of_isTrap h s) (hlink.trans hroutine) fun _ hr => hr

theorem execState_frame (i : Instr) (s : State) : ExecFrame i s (execState i s) := by
  cases i with
  | addReg | addImm | andReg | andImm | not | lea => exact .of_loadOnly rfl rfl rfl (loadOnly_define ..)
  | ld | ldr => exact .of_loadOnly rfl rfl rfl (loadInto_only ..)
  | ldi => exact .of_loadOnly rfl rfl rfl (loadIndirect_only ..)
  | st | str => exact .of_store rfl (.refl [] s) _
  | sti sr off =>
    obtain ⟨-, e⟩ | ⟨-, -, -, e⟩ | ⟨-, -, -, e⟩ := memRead_cases (pcRelative off s) s
    · simp only [execState, storeIndirect, e, andThen_done]
      exact .of_store (by simp [Instr.storeAddress, e]) (consoleOnly_afterRead ..) _
    · simp only [execState, storeIndirect, e, andThen_wait]
      exact .of_consoleOnly (by simp [Instr.storeAddress, e]) (consoleOnly_waitAt ..) (by simp)
    · simp only [execState, storeIndirect, e, andThen_fail]
      exact .of_consoleOnly (by simp [Instr.storeAddress, e]) (consoleOnly_raiseAt ..) (by simp)
  | br n z p off =>
    simp only [execState]
    split
    · exact .of_transfer rfl rfl (.refl [] s) rfl _
    · exact .of_consoleOnly rfl (.refl [] s) (by simp)
  | jsr | jsrr => exact .of_transfer rfl rfl (consoleOnly_setReg s .r7 s.pc) rfl _
  | jmp | ret => exact .of_transfer rfl rfl (.refl [] s) rfl _
  | rti | reserved => exact .of_consoleOnly rfl (consoleOnly_raiseAt ..) (by simp)
  | trap | getc | out | puts | inp | putsp | halt => exact .of_trap rfl s

/-- Settles O51: the frame's two clauses on memory. -/
theorem onlyStoresWriteMemory : Obligations.OnlyStoresWriteMemory := fun i s t h => by
  rw [exec_next_iff.1 h]
  exact ⟨(execState_frame i s).cells, (execState_frame i s).mem⟩

/-- Settles O52: the frame's clause on pc. -/
theorem onlyTransfersMovePc : Obligations.OnlyTransfersMovePc := fun i s t h => by
  rw [exec_next_iff.1 h]
  exact (execState_frame i s).pc

/-- Settles O49: the frame's clause on registers; no routine writes R7 after the link. -/
theorem onlyDestinationsAreWritten : Obligations.OnlyDestinationsAreWritten := fun i s t h => by
  rw [exec_next_iff.1 h]
  refine ⟨(execState_frame i s).regs, fun htrap => ?_⟩
  obtain ⟨rs, -, hr7, honly⟩ := execState_trap htrap s
  obtain ⟨-, hlink, -⟩ := honly.trapFrame hr7
  exact hlink

/-! ### The flags of the seven -/

/-- Either the instruction finished and the flags are those of `dr`, or it waits or failed and left them. -/
def FlagsOf (dr : Reg) (s t : State) : Prop :=
  (SameControl s t → t.cc = ccOf (t.reg dr)) ∧ (¬ SameControl s t → t.cc = s.cc)

theorem flagsOf_define {s u : State} (h : SameControl s u) (dr : Reg) (v : Word) : FlagsOf dr s (u.define dr v) :=
  ⟨fun _ => by rw [reg_define_same]; rfl, fun hn => absurd h hn⟩

theorem flagsOf_waitAt {s u : State} (hhold : s.hold = none) (hcc : u.cc = s.cc) (dr : Reg) (ir : Word)
    (p : WaitPoint) : FlagsOf dr s (u.waitAt ir p) :=
  ⟨fun hc => by have := hc.2.2; simp [hhold] at this, fun _ => hcc⟩

theorem flagsOf_raiseAt {s u : State} (hrun : s.run = .running) (hcc : u.cc = s.cc) (dr : Reg) (c : Cause) (ir : Word) :
    FlagsOf dr s (u.raiseAt c ir) :=
  ⟨fun hc => by have := hc.1; simp [hrun] at this, fun _ => hcc⟩

section
variable {s : State} (hhold : s.hold = none) (hrun : s.run = .running)
include hhold hrun

theorem loadInto_flags {u : State} (hu : SameControl s u) (hcc : u.cc = s.cc) (ir : Word) (dr : Reg) (a : Word) :
    FlagsOf dr s (loadInto ir dr a u) := by
  unfold loadInto
  exact memRead_elim (fun _ => flagsOf_define hu ..) (fun _ _ _ => flagsOf_waitAt hhold hcc ..)
    (fun _ _ _ => flagsOf_raiseAt hrun hcc ..)

theorem loadIndirect_flags (ir : Word) (dr : Reg) (a : Word) : FlagsOf dr s (loadIndirect ir dr a s) := by
  unfold loadIndirect
  exact memRead_elim (fun _ => loadInto_flags hhold hrun (sameControl_afterRead a s) rfl ..)
    (fun _ _ _ => flagsOf_waitAt hhold rfl ..) (fun _ _ _ => flagsOf_raiseAt hrun rfl ..)

theorem execState_flags {i : Instr} (hi : i.definesFlags = true) :
    ∃ dr, i.dests = [dr] ∧ FlagsOf dr s (execState i s) := by
  have same : SameControl s s := ⟨rfl, rfl, rfl⟩
  cases i with
  | addReg | addImm | andReg | andImm | not | lea => exact ⟨_, rfl, flagsOf_define same ..⟩
  | ld | ldr => exact ⟨_, rfl, loadInto_flags hhold hrun same rfl ..⟩
  | ldi => exact ⟨_, rfl, loadIndirect_flags hhold hrun ..⟩
  | _ => cases hi

end

/-- Settles O50: the frame's clause on the flags, and for the seven what each of its ways to end does to them. -/
theorem onlySevenInstructionsWriteFlags : Obligations.OnlySevenInstructionsWriteFlags := fun i s t h => by
  rw [exec_next_iff.1 h]
  refine ⟨(execState_frame i s).cc, fun hi hhold hrun => ?_⟩
  obtain ⟨dr, hdests, hdone, hnot⟩ := execState_flags hhold hrun hi
  refine ⟨fun hc r hr => ?_, hnot⟩
  rw [hdests, List.mem_singleton] at hr
  rw [hr, hdone hc]

end Sys2Proof.Machine
end

section
/-! The ways through a step and what each leaves: the invariant, the four outcomes, waits, halting and the fault record
(40_fetch_execute.md R70 to R75). -/

namespace Sys2Proof.Machine

/-! ### Going on after a wait -/

/-- What going on inside an instruction leaves alone. -/
structure ResumeFrame (s t : State) : Prop where
  pc : t.pc = s.pc
  memWf : s.mem.wf = true → t.mem.wf = true
  console : ConsoleForward s t

theorem LoadOnly.resumeFrame {dr : Reg} {s t : State} (h : LoadOnly dr s t) : ResumeFrame s t :=
  ⟨h.pc, fun hwf => by rwa [h.mem], h.console⟩

theorem ConsoleOnly.resumeFrame {rs : List Reg} {s t : State} (h : ConsoleOnly rs s t) : ResumeFrame s t :=
  ⟨h.pc, fun hwf => by rwa [h.mem], h.console⟩

theorem storeIndirect_resumeFrame (ir : Word) (sr : Reg) (a : Word) (s : State) :
    ResumeFrame s (storeIndirect ir sr a s) := by
  unfold storeIndirect
  refine memRead_elim (fun _ => ?_) (fun _ _ _ => (consoleOnly_waitAt ..).resumeFrame)
    (fun _ _ _ => (consoleOnly_raiseAt ..).resumeFrame)
  exact ⟨rfl, fun hwf => memWrite_wf (afterRead a s) hwf ..,
    (consoleForward_afterRead a s).trans (.of_same ⟨rfl, rfl, rfl, rfl⟩)⟩

theorem resume_frame (ir : Word) (p : WaitPoint) (s : State) : ResumeFrame s (resume ir p s) := by
  cases p with
  | load dr a => exact (loadInto_only ..).resumeFrame
  | ldiPointer dr a => exact (loadIndirect_only ..).resumeFrame
  | stiPointer sr a => exact storeIndirect_resumeFrame ..
  | puts a => exact (putsWalk_only ..).resumeFrame
  | putsp a => exact (putspWalk_only ..).resumeFrame
  | getc => exact (getcRoutine_only ..).resumeFrame
  | inp => exact (inpRead_only ..).resumeFrame

/-- An instruction that waits again waits at a point of its own. -/
theorem resume_ends (ir : Word) (p : WaitPoint) (s : State) :
    Ends ir (fun q => ∀ i, p.ofInstr i → q.ofInstr i) s (resume ir p s) := by
  cases p with
  | load dr a => exact (loadInto_ends ..).mono fun q (hq : q = _) i hi => hq ▸ hi
  | ldiPointer dr a =>
    refine (loadIndirect_ends ..).mono fun q hq i hi => ?_
    obtain rfl | ⟨b, rfl⟩ := hq
    · exact hi
    · exact .inr (.inl hi)
  | stiPointer sr a => exact (storeIndirect_ends ..).mono fun q (hq : q = _) i hi => hq ▸ hi
  | puts a =>
    refine (putsFrom_ends ..).mono fun q hq i hi => ?_
    obtain ⟨b, rfl⟩ := hq
    exact hi
  | putsp a =>
    refine (putspFrom_ends ..).mono fun q hq i hi => ?_
    obtain ⟨b, rfl⟩ := hq
    exact hi
  | getc => exact (getcRoutine_ends ..).mono fun q (hq : q = _) i hi => hq ▸ hi
  | inp => exact (inpRead_ends ..).mono fun q (hq : q = _) i hi => hq ▸ hi

/-! ### The ways through a step -/

/-- The state in which a fetched word is executed: its read done, pc incremented (40_fetch_execute.md R70). -/
def State.fetched (s : State) : State := (afterRead s.pc s).setPc (s.pc + 1#16)

@[simp] theorem fetched_fault (s : State) : s.fetched.fault = s.fault := rfl

@[simp] theorem fetched_ia (s : State) : s.fetched.ia = s.pc := by
  show s.pc + 1#16 - 1#16 = s.pc
  exact BitVec.add_sub_cancel ..

/-- What a step from `s` into `t` did. -/
inductive StepWay (s t : State) : Prop where
  | executes (i : Instr) (fetching : s.hold = none ∨ s.hold = some .fetch) (ready : ReadReady s.pc s)
      (decodes : decode (readValue s.pc s) = .ok i) (result : t = execState i s.unhold.fetched)
  | refuses (fetching : s.hold = none ∨ s.hold = some .fetch) (ready : ReadReady s.pc s)
      (result : t = s.unhold.fetched.raiseIllegal (readValue s.pc s))
  | waits (fetching : s.hold = none ∨ s.hold = some .fetch) (atKbd : s.pc = Config.kbdrAddr) (empty : s.kbd = [])
      (opened : s.kbdClosed = false) (result : t = s.unhold.waitInFetch)
  | fails (fetching : s.hold = none ∨ s.hold = some .fetch) (atKbd : s.pc = Config.kbdrAddr) (empty : s.kbd = [])
      (closed : s.kbdClosed = true) (result : t = s.unhold.failInFetch)
  | resumes (ir : Word) (p : WaitPoint) (within : s.hold = some (.within ir p)) (result : t = resume ir p s.unhold)

theorem stepWay {s t : State} (h : step s = .next t) : StepWay s t := by
  obtain ⟨fetching, hf⟩ | ⟨ir, p, within, result⟩ := step_cases h
  · obtain ⟨ready, i, decodes, result⟩ | ⟨ready, -, result⟩ | ⟨atKbd, empty, opened, result⟩ |
      ⟨atKbd, empty, closed, result⟩ := fetchExecute_cases hf
    · exact .executes i fetching ready decodes (exec_next_iff.1 result)
    · exact .refuses fetching ready result
    · exact .waits fetching atKbd empty opened result
    · exact .fails fetching atKbd empty closed result
  · exact .resumes ir p within result

theorem encode_of_decode {ir : Word} {i : Instr} (h : decode ir = .ok i) : encode i = ir :=
  (encodeInvertsDecode ir i h).1

theorem named_of_decode {ir : Word} {i : Instr} (h : decode ir = .ok i) : i.named = i :=
  named_of_wellFormed (encodeInvertsDecode ir i h).2

/-! ### How each way leaves the controller -/

theorem Ends.not_halted {ir : Word} {P : WaitPoint → Prop} {s t : State} (h : Ends ir P s t) (hrun : s.run = .running) :
    t.run ≠ .halted := by
  cases h with
  | finished h => simp [h.1, hrun]
  | waits p own atKbd run => simp [run, hrun]
  | failed run => simp [run]

theorem Ends.hold_empty {ir : Word} {P : WaitPoint → Prop} {s t : State} (hhold : s.hold = none) (h : Ends ir P s t)
    (ht : t.hold ≠ none) : t.kbd = [] ∧ t.kbdClosed = false := by
  cases h with
  | finished h => exact absurd (h.2.2.trans hhold) ht
  | waits p own atKbd run fault hold empty opened => exact ⟨empty, opened⟩
  | failed run fault hold => exact absurd (hold.trans hhold) ht

theorem ExecEnds.hold_empty {i : Instr} {s t : State} (hhold : s.hold = none) (h : ExecEnds i s t)
    (ht : t.hold ≠ none) : t.kbd = [] ∧ t.kbdClosed = false := by
  cases h with
  | console h => exact h.hold_empty hhold ht
  | halted isHalt run fault hold => exact absurd (hold.trans hhold) ht
  | raised cause run fault hold => exact absurd (hold.trans hhold) ht

/-- Settles O46: a step starts from a state that does not wait, so a wait after it was met at an empty open keyboard. -/
theorem processorWaitsOnlyForAnEmptyKeyboard : Obligations.ProcessorWaitsOnlyForAnEmptyKeyboard := fun s t h ht => by
  cases stepWay h with
  | executes i _ _ _ result => exact (result ▸ execState_ends i s.unhold.fetched).hold_empty rfl ht
  | refuses _ _ result => exact absurd (by rw [result]; rfl) ht
  | waits _ _ empty opened result => rw [result]; exact ⟨empty, opened⟩
  | fails _ _ _ _ result => exact absurd (by rw [result]; rfl) ht
  | resumes ir p _ result => exact (result ▸ resume_ends ir p s.unhold).hold_empty rfl ht

/-- Settles O53: every way through a step keeps the console's frame. -/
theorem consoleOnlyMovesForward : Obligations.ConsoleOnlyMovesForward := fun s t h => by
  have hforward : ConsoleForward s t := by
    have hunhold : ConsoleForward s s.unhold := .of_same ⟨rfl, rfl, rfl, rfl⟩
    have hfetched : ConsoleForward s s.unhold.fetched :=
      hunhold.trans ((consoleForward_afterRead ..).trans (.of_same ⟨rfl, rfl, rfl, rfl⟩))
    cases stepWay h with
    | executes i _ _ _ result => exact result ▸ hfetched.trans (execState_frame i _).console
    | refuses _ _ result => exact result ▸ hfetched.trans (.of_same ⟨rfl, rfl, rfl, rfl⟩)
    | waits _ _ _ _ result => exact result ▸ .of_same ⟨rfl, rfl, rfl, rfl⟩
    | fails _ _ _ _ result => exact result ▸ .of_same ⟨rfl, rfl, rfl, rfl⟩
    | resumes ir p _ result => exact result ▸ hunhold.trans (resume_frame ir p _).console
  exact ⟨hforward.taken, hforward.written, hforward.kbdClosed, hforward.outClosed⟩

/-! ### The invariant -/

theorem State.Inv.fault_eq_none {s : State} (h : s.Inv) (hrun : s.run = .running) : s.fault = none := by
  have := h.faultIffFaulted
  simpa [hrun] using this

/-- A state that does not wait is sound by its memory and its fault record. -/
theorem State.Inv.of_hold_none {t : State} (hwf : t.mem.wf = true) (hhold : t.hold = none)
    (hfault : t.run = .faulted ↔ t.fault.isSome = true) : t.Inv where
  memWf := hwf
  faultIffFaulted := hfault
  holdRunning := by simp [hhold]
  holdFetch := by simp [hhold]
  holdWithin := by simp [hhold]

theorem State.Inv.of_ends {ir : Word} {P : WaitPoint → Prop} {t : State} (s : State) (hrun : s.run = .running)
    (hfault : s.fault = none) (hhold : s.hold = none) (hP : ∀ p, P p → ∃ i, decode ir = .ok i ∧ p.ofInstr i)
    (h : Ends ir P s t) (hwf : t.mem.wf = true) : t.Inv := by
  cases h with
  | finished h => exact .of_hold_none hwf (h.2.2.trans hhold) (by simp [h.1, h.2.1, hrun, hfault])
  | failed run fault hold => exact .of_hold_none hwf (hold.trans hhold) (by simp [run, fault])
  | waits p own atKbd run fault hold =>
    refine ⟨hwf, by simp [run, fault, hrun, hfault], fun _ => run.trans hrun, by simp [hold], fun ir' q hq => ?_⟩
    cases hold.symm.trans hq
    exact ⟨atKbd, hP p own⟩

theorem State.Inv.of_execEnds {i : Instr} {t : State} (s : State) (hrun : s.run = .running) (hfault : s.fault = none)
    (hhold : s.hold = none) (hdecode : decode (encode i) = .ok i.named) (h : ExecEnds i s t) (hwf : t.mem.wf = true) :
    t.Inv := by
  cases h with
  | console h => exact .of_ends s hrun hfault hhold (fun p hp => ⟨i.named, hdecode, hp⟩) h hwf
  | halted isHalt run fault hold => exact .of_hold_none hwf (hold.trans hhold) (by simp [run, fault, hfault])
  | raised cause run fault hold => exact .of_hold_none hwf (hold.trans hhold) (by simp [run, fault])

/-- Settles O12: memory by the frames; the controller by how an instruction, or the rest of one, ends. A wait inside an
instruction is at a point of the instruction that the held word decodes to, because that word is its encoding. -/
theorem stepKeepsInv : Obligations.StepKeepsInv := fun s t hinv h => by
  have hrun := running_of_step h
  have hfault := hinv.fault_eq_none hrun
  cases stepWay h with
  | executes i _ _ decodes result =>
    have hdecode : decode (encode i) = .ok i.named := by rw [encode_of_decode decodes, named_of_decode decodes, decodes]
    exact .of_execEnds s.unhold.fetched hrun hfault rfl hdecode (result ▸ execState_ends i s.unhold.fetched)
      (result ▸ (execState_frame i s.unhold.fetched).memWf hinv.memWf)
  | refuses _ _ result => exact result ▸ .of_hold_none hinv.memWf rfl (by simp)
  | waits _ atKbd _ _ result =>
    exact result ▸ ⟨hinv.memWf, hinv.faultIffFaulted, fun _ => hrun, fun _ => atKbd, fun _ _ hq => by cases hq⟩
  | fails _ _ _ _ result => exact result ▸ .of_hold_none hinv.memWf rfl (by simp)
  | resumes ir p within result =>
    obtain ⟨-, i, decodes, hown⟩ := hinv.holdWithin ir p within
    exact .of_ends s.unhold hrun hfault rfl (fun q hq => ⟨i, decodes, hq i hown⟩)
      (result ▸ resume_ends ir p s.unhold) (result ▸ (resume_frame ir p s.unhold).memWf hinv.memWf)

/-! ### A step is defined exactly from a running processor -/

theorem exists_fetchExecute (s : State) : ∃ t, fetchExecute s = .next t := by
  obtain ⟨-, e⟩ | ⟨-, -, -, e⟩ | ⟨-, -, -, e⟩ := memRead_cases s.pc s
  · cases hd : decode (readValue s.pc s) with
    | ok i => exact ⟨_, (fetchExecute_ok e hd).trans (exec_eq ..)⟩
    | error r => exact ⟨_, fetchExecute_error e hd⟩
  · exact ⟨_, fetchExecute_wait e⟩
  · exact ⟨_, fetchExecute_fail e⟩

theorem exists_step {s : State} (hrun : s.run = .running) : ∃ t, step s = .next t := by
  cases hhold : s.hold with
  | none => rw [step_running_none hrun hhold]; exact exists_fetchExecute s
  | some w =>
    cases w with
    | fetch => rw [step_running_fetch hrun hhold]; exact exists_fetchExecute s.unhold
    | within ir p => exact ⟨_, step_running_within hrun hhold⟩

/-- Settles O9: the two named stops are `step`'s answers outside `running`, and a running processor steps. -/
theorem noStepFromTerminalStates : Obligations.NoStepFromTerminalStates := fun s => by
  cases hrun : s.run with
  | running =>
    obtain ⟨t, ht⟩ := exists_step hrun
    simp [ht]
  | halted => simp [step, hrun]
  | faulted => simp [step, hrun]

/-- Settles O10: the next state is sound, which pairs `run` with the fault record, and it waits only as O46 says. -/
theorem runningProcessorHasFourOutcomes : Obligations.RunningProcessorHasFourOutcomes := fun s hinv hrun => by
  obtain ⟨t, ht⟩ := exists_step hrun
  have hfault := (stepKeepsInv s t hinv ht).faultIffFaulted
  refine ⟨t, ht, ?_⟩
  cases htrun : t.run with
  | running =>
    by_cases hhold : t.hold = none
    · exact .inl ⟨rfl, hhold⟩
    · exact .inr (.inr (.inr ⟨rfl, Option.isSome_iff_ne_none.2 hhold,
        processorWaitsOnlyForAnEmptyKeyboard s t ht hhold⟩))
  | halted => exact .inr (.inl ⟨rfl, by simpa [htrun] using hfault⟩)
  | faulted => exact .inr (.inr (.inl ⟨rfl, hfault.1 htrun⟩))

/-! ### Halting and faulting -/

/-- Settles O54: among all ends of an instruction only HALT's halts, and its word is `0xF025`. -/
theorem onlyHaltHalts : Obligations.OnlyHaltHalts := fun s t hrun h ht => by
  cases stepWay h with
  | executes i fetching ready decodes result =>
    refine ⟨fetching, afterRead s.pc s, ?_⟩
    cases result ▸ execState_ends i s.unhold.fetched with
    | console h => exact absurd ht (h.not_halted hrun)
    | raised cause run => simp [run] at ht
    | halted isHalt =>
      have hi : i = .halt := (named_of_decode decodes).symm.trans isHalt
      have hword : readValue s.pc s = 0xF025#16 := by rw [← encode_of_decode decodes, hi]; rfl
      rw [memRead_ready ready, hword]
  | refuses _ _ result => simp [result] at ht
  | waits _ _ _ _ result => simp [result, hrun] at ht
  | fails _ _ _ _ result => simp [result] at ht
  | resumes ir p _ result => exact absurd ht ((result ▸ resume_ends ir p s.unhold).not_halted hrun)

theorem Ends.fault_eq {ir : Word} {P : WaitPoint → Prop} {s t : State} {r : FaultRecord} (h : Ends ir P s t)
    (hfault : s.fault = none) (ht : t.fault = some r) : r = ⟨.consoleIOFailure, s.ia, some ir⟩ := by
  cases h with
  | finished h => simp [h.2.1, hfault] at ht
  | waits p own atKbd run fault => simp [fault, hfault] at ht
  | failed run fault => exact (Option.some.inj (fault.symm.trans ht)).symm

theorem ExecEnds.fault_eq {i : Instr} {s t : State} {r : FaultRecord} (h : ExecEnds i s t) (hfault : s.fault = none)
    (ht : t.fault = some r) : r.addr = s.ia ∧ r.word = some (encode i) := by
  cases h with
  | console h => rw [h.fault_eq hfault ht]; exact ⟨rfl, rfl⟩
  | halted isHalt run fault => simp [fault, hfault] at ht
  | raised cause run fault => rw [← Option.some.inj (fault.symm.trans ht)]; exact ⟨rfl, rfl⟩

theorem transfer_keeps_fault {i : Instr} (hi : i.isTransfer = true) (s : State) : (execState i s).fault = s.fault := by
  cases i with
  | br n z p off => simp only [execState]; split <;> rfl
  | jsr | jsrr | jmp | ret => rfl
  | _ => cases hi

/-- Settles O55: an instruction's record is at its own address with its word; one that faults is no transfer, so pc is
the incremented one. -/
theorem faultRecordNamesTheFaultingWord : Obligations.FaultRecordNamesTheFaultingWord := fun s t r hinv h ht => by
  have hfault := hinv.fault_eq_none (running_of_step h)
  cases stepWay h with
  | executes i fetching ready decodes result =>
    refine ⟨fun _ => ?_, fun ir p hp => by simp [hp] at fetching⟩
    obtain ⟨haddr, hword⟩ := (result ▸ execState_ends i s.unhold.fetched).fault_eq hfault ht
    have hpc : t.pc = s.pc + 1#16 := by
      rw [result]
      refine (execState_frame i _).pc (Bool.eq_false_iff.2 fun htransfer => ?_)
      simp [result, transfer_keeps_fault htransfer, hfault] at ht
    exact ⟨by simpa using haddr, hpc, .inl ⟨_, _, memRead_ready ready, by rw [hword, encode_of_decode decodes]⟩⟩
  | refuses fetching ready result =>
    refine ⟨fun _ => ?_, fun ir p hp => by simp [hp] at fetching⟩
    subst result
    cases ht
    exact ⟨fetched_ia _, rfl, .inl ⟨_, _, memRead_ready ready, rfl⟩⟩
  | waits _ _ _ _ result => simp [result, hfault] at ht
  | fails fetching atKbd empty closed result =>
    refine ⟨fun _ => ?_, fun ir p hp => by simp [hp] at fetching⟩
    subst result
    cases ht
    have hnot : ¬ ReadReady s.pc s := not_readReady_iff.2 ⟨atKbd, empty⟩
    exact ⟨rfl, rfl, .inr ⟨by rw [memRead_notReady hnot, if_pos closed], rfl, rfl⟩⟩
  | resumes ir p within result =>
    refine ⟨fun hfetch => by simp [within] at hfetch, fun ir' q hq => ?_⟩
    cases within.symm.trans hq
    exact ⟨(result ▸ resume_ends ir p s.unhold).fault_eq hfault ht, result ▸ (resume_frame ir p s.unhold).pc⟩

/-! ### A wait -/

/-- A read without a character waits, or fails once the keyboard is closed (20_memory.md R41). -/
theorem memRead_andThen_empty {a : Word} {s : State} (ha : a = Config.kbdrAddr) (hk : s.kbd = []) (ir : Word)
    (p : WaitPoint) (go : Word → State → State) : (memRead a s).andThen s ir p go =
      if s.kbdClosed then s.raiseAt .consoleIOFailure ir else s.waitAt ir p := by
  rw [memRead_notReady (not_readReady_iff.2 ⟨ha, hk⟩)]
  split <;> rfl

theorem consoleRead_andThen_empty {s : State} (hk : s.kbd = []) (ir : Word) (p : WaitPoint)
    (go : Byte → State → State) : (consoleRead s).andThen s ir p go =
      if s.kbdClosed then s.raiseAt .consoleIOFailure ir else s.waitAt ir p := by
  simp only [consoleRead, hk]
  split <;> rfl

/-- Without a character the rest of an instruction waits where it stands, or fails once the keyboard is closed. -/
theorem resume_empty (p : WaitPoint) (s : State) (hp : p.atKeyboard) (hk : s.kbd = []) (ir : Word) :
    resume ir p s = if s.kbdClosed then s.raiseAt .consoleIOFailure ir else s.waitAt ir p := by
  cases p with
  | load dr a => exact memRead_andThen_empty hp hk ..
  | ldiPointer dr a => exact memRead_andThen_empty hp hk ..
  | stiPointer sr a => exact memRead_andThen_empty hp hk ..
  | puts a => exact (putsFrom_unfold ir a s).trans (memRead_andThen_empty hp hk ..)
  | putsp a => exact (putspFrom_unfold ir a s).trans (memRead_andThen_empty hp hk ..)
  | getc => exact consoleRead_andThen_empty hk ..
  | inp => exact consoleRead_andThen_empty hk ..

theorem hold_unhold {s : State} {w : Hold} (h : s.hold = some w) : { s.unhold with hold := some w } = s := by
  rw [← h]; rfl

/-- Settles O47: the wait's own read is tried again, at the same place. -/
theorem waitLastsUntilTheHostMoves : Obligations.WaitLastsUntilTheHostMoves := fun s hinv hk => by
  have hwithin : ∀ ir p, s.hold = some (.within ir p) → step s = .next (if s.kbdClosed then
      s.unhold.raiseAt .consoleIOFailure ir else s.unhold.waitAt ir p) := fun ir p hp => by
    rw [step_running_within (hinv.holdRunning (by simp [hp])) hp,
      resume_empty p s.unhold (hinv.holdWithin ir p hp).1 hk, unhold_kbdClosed]
  have hfetch : s.hold = some .fetch → step s = fetchExecute s.unhold ∧
      memRead s.unhold.pc s.unhold = if s.kbdClosed then .fail else .wait := fun hp =>
    ⟨step_running_fetch (hinv.holdRunning (by simp [hp])) hp,
      memRead_notReady (not_readReady_iff.2 ⟨hinv.holdFetch hp, hk⟩)⟩
  refine ⟨fun hsome hopen => ?_, fun ir p hp hclosed => ?_, fun hp hclosed => ?_⟩
  · obtain ⟨w, hw⟩ := Option.isSome_iff_exists.1 hsome
    cases w with
    | fetch =>
      obtain ⟨hstep, hread⟩ := hfetch hw
      rw [hstep, fetchExecute_wait (hread.trans (by rw [hopen]; rfl))]
      exact congrArg _ (hold_unhold hw)
    | within ir p =>
      rw [hwithin ir p hw, hopen]
      exact congrArg _ (hold_unhold hw)
  · rw [hwithin ir p hp, if_pos hclosed]
    rfl
  · obtain ⟨hstep, hread⟩ := hfetch hp
    rw [hstep, fetchExecute_fail (hread.trans (if_pos hclosed))]
    rfl

end Sys2Proof.Machine
end

section
/-! Two runs side by side, from states that differ only where no program looks: in the output (10_state.md R23), or in
the cells behind the two mapped addresses (10_state.md R24). One simulation covers both. -/

namespace Sys2Proof.Machine

/-- A relation of memories that no read through the device decoder tells apart, and that writing keeps. -/
structure MemoryTwins (M : Memory → Memory → Prop) : Prop where
  plain : ∀ {m m' : Memory}, M m m' → ∀ a : Word, isPlain a = true → m'.read a.toNat = m.read a.toNat
  write : ∀ {m m' : Memory}, M m m' → ∀ a v : Word, M (m.write a.toNat v) (m'.write a.toNat v)

/-- `s` with another memory and another output. -/
def State.withMemOut (s : State) (m : Memory) (o : List Byte) : State := { s with mem := m, out := o }

/-- `s'` is `s` but for memory, which `M` relates, and the output: `s'` has appended to `y` what `s` has to `x`. -/
def Twins (M : Memory → Memory → Prop) (x y : List Byte) (s s' : State) : Prop :=
  ∃ m d, s' = s.withMemOut m (y ++ d) ∧ M s.mem m ∧ s.out = x ++ d

section
variable {M : Memory → Memory → Prop} {x y : List Byte} {s s' : State}

/-! ### The shared operations on both sides -/

/-- An operation that neither reads nor writes memory or output does the same on both sides. -/
theorem Twins.map (h : Twins M x y s s') (f : State → State)
    (hf : ∀ m o, f (s.withMemOut m o) = (f s).withMemOut m o) (hmem : (f s).mem = s.mem) (hout : (f s).out = s.out) :
    Twins M x y (f s) (f s') := by
  obtain ⟨m, d, rfl, hm, hx⟩ := h
  exact ⟨m, d, hf .., hmem ▸ hm, hout.trans hx⟩

theorem Twins.raiseAt (h : Twins M x y s s') (c : Cause) (ir : Word) : Twins M x y (s.raiseAt c ir) (s'.raiseAt c ir) :=
  h.map (State.raiseAt · c ir) (fun _ _ => rfl) rfl rfl

theorem Twins.waitAt (h : Twins M x y s s') (ir : Word) (p : WaitPoint) :
    Twins M x y (s.waitAt ir p) (s'.waitAt ir p) :=
  h.map (State.waitAt · ir p) (fun _ _ => rfl) rfl rfl

theorem Twins.define (h : Twins M x y s s') (dr : Reg) (v : Word) : Twins M x y (s.define dr v) (s'.define dr v) :=
  h.map (State.define · dr v) (fun _ _ => rfl) rfl rfl

theorem Twins.setReg (h : Twins M x y s s') (r : Reg) (v : Word) : Twins M x y (s.setReg r v) (s'.setReg r v) :=
  h.map (State.setReg · r v) (fun _ _ => rfl) rfl rfl

theorem Twins.wrote (h : Twins M x y s s') (cs : List Byte) : Twins M x y (s.wrote cs) (s'.wrote cs) := by
  obtain ⟨m, d, rfl, hm, hx⟩ := h
  refine ⟨m, d ++ cs, ?_, hm, ?_⟩
  · simp [State.wrote, State.withMemOut]
  · simp [hx]

theorem Twins.memWrite (hM : MemoryTwins M) (h : Twins M x y s s') (a v : Word) :
    Twins M x y (s.memWrite a v) (s'.memWrite a v) := by
  obtain ⟨m, d, rfl, hm, hx⟩ := h
  exact ⟨_, d, rfl, hM.write hm a v, hx⟩

theorem Twins.readValue_eq (hM : MemoryTwins M) (h : Twins M x y s s') (a : Word) : readValue a s' = readValue a s := by
  obtain ⟨m, d, rfl, hm, -⟩ := h
  by_cases hp : isPlain a = true
  · rw [readValue_plain hp, readValue_plain hp]
    exact hM.plain hm a hp
  · have hmapped : a = Config.kbsrAddr ∨ a = Config.kbdrAddr := by
      by_contra hc
      exact hp (isPlain_iff.2 (not_or.1 hc))
    obtain rfl | rfl := hmapped <;> rfl

/-- A read ends the same way on both sides, with the same value. -/
theorem Twins.memRead_cases (hM : MemoryTwins M) (h : Twins M x y s s') (a : Word) :
    (∃ v t t', memRead a s = .done v t ∧ memRead a s' = .done v t' ∧ Twins M x y t t') ∨
    (memRead a s = .wait ∧ memRead a s' = .wait) ∨ (memRead a s = .fail ∧ memRead a s' = .fail) := by
  have hready : ReadReady a s' ↔ ReadReady a s := by obtain ⟨m, d, rfl, -, -⟩ := h; rfl
  have hclosed : s'.kbdClosed = s.kbdClosed := by obtain ⟨m, d, rfl, -, -⟩ := h; rfl
  by_cases hr : ReadReady a s
  · refine .inl ⟨_, _, _, memRead_ready hr, h.readValue_eq hM a ▸ memRead_ready (hready.2 hr), ?_⟩
    exact h.map (afterRead a) (fun _ _ => rfl) rfl rfl
  · rw [memRead_notReady hr, memRead_notReady (mt hready.1 hr), hclosed]
    cases s.kbdClosed with
    | true => exact .inr (.inr ⟨rfl, rfl⟩)
    | false => exact .inr (.inl ⟨rfl, rfl⟩)

/-- What follows a read goes on side by side. -/
theorem Twins.read (hM : MemoryTwins M) (h : Twins M x y s s') (a ir : Word) (p : WaitPoint) {go : Word → State → State}
    (hgo : ∀ v t t', Twins M x y t t' → Twins M x y (go v t) (go v t')) :
    Twins M x y ((memRead a s).andThen s ir p go) ((memRead a s').andThen s' ir p go) := by
  obtain ⟨v, t, t', e, e', ht⟩ | ⟨e, e'⟩ | ⟨e, e'⟩ := h.memRead_cases hM a
  · rw [e, e']; exact hgo v t t' ht
  · rw [e, e']; exact h.waitAt ..
  · rw [e, e']; exact h.raiseAt ..

theorem Twins.consoleRead (h : Twins M x y s s') (ir : Word) (p : WaitPoint) {go : Byte → State → State}
    (hgo : ∀ c t t', Twins M x y t t' → Twins M x y (go c t) (go c t')) :
    Twins M x y ((consoleRead s).andThen s ir p go) ((consoleRead s').andThen s' ir p go) := by
  have hkbd : s'.kbd = s.kbd ∧ s'.kbdClosed = s.kbdClosed := by obtain ⟨m, d, rfl, -, -⟩ := h; exact ⟨rfl, rfl⟩
  unfold Machine.consoleRead
  rw [hkbd.1, hkbd.2]
  cases s.kbd with
  | nil => cases s.kbdClosed with
    | true => exact h.raiseAt ..
    | false => exact h.waitAt ..
  | cons c rest => exact hgo c _ _ (h.map (State.setKbd · rest) (fun _ _ => rfl) rfl rfl)

theorem Twins.consoleWrite (h : Twins M x y s s') (c : Byte) (ir : Word) {go : State → State}
    (hgo : ∀ t t', Twins M x y t t' → Twins M x y (go t) (go t')) :
    Twins M x y (andThenWritten (consoleWrite c s) s ir go) (andThenWritten (consoleWrite c s') s' ir go) := by
  have hclosed : s'.outClosed = s.outClosed := by obtain ⟨m, d, rfl, -, -⟩ := h; rfl
  unfold Machine.consoleWrite
  rw [hclosed]
  cases s.outClosed with
  | true => exact h.raiseAt ..
  | false => exact hgo _ _ (h.wrote _)

theorem Twins.consoleWriteAll (h : Twins M x y s s') (cs : List Byte) (ir : Word) {go : State → State}
    (hgo : ∀ t t', Twins M x y t t' → Twins M x y (go t) (go t')) :
    Twins M x y (andThenWritten (consoleWriteAll cs s) s ir go) (andThenWritten (consoleWriteAll cs s') s' ir go) := by
  have hclosed : s'.outClosed = s.outClosed := by obtain ⟨m, d, rfl, -, -⟩ := h; rfl
  unfold Machine.consoleWriteAll
  rw [hclosed]
  cases s.outClosed && !cs.isEmpty with
  | true => exact h.raiseAt ..
  | false => exact hgo _ _ (h.wrote _)

/-! ### Pieces of instructions -/

section
variable (hM : MemoryTwins M) (h : Twins M x y s s')
include h

theorem Twins.reg_eq (r : Reg) : s'.reg r = s.reg r := by obtain ⟨m, d, rfl, -, -⟩ := h; rfl

theorem Twins.pcRelative_eq {n : Nat} (off : BitVec n) : pcRelative off s' = pcRelative off s := by
  obtain ⟨m, d, rfl, -, -⟩ := h; rfl

theorem Twins.basePlus_eq (base : Reg) (off : BitVec 6) : basePlus base off s' = basePlus base off s := by
  obtain ⟨m, d, rfl, -, -⟩ := h; rfl

theorem Twins.getcRoutine (ir : Word) : Twins M x y (getcRoutine ir s) (getcRoutine ir s') :=
  h.consoleRead ir .getc fun _ _ _ ht => ht.setReg ..

theorem Twins.outRoutine (ir : Word) : Twins M x y (outRoutine ir s) (outRoutine ir s') := by
  unfold Machine.outRoutine
  rw [h.reg_eq .r0]
  exact h.consoleWrite _ ir fun _ _ ht => ht

theorem Twins.inpRead (ir : Word) : Twins M x y (inpRead ir s) (inpRead ir s') :=
  h.consoleRead ir .inp fun c _ _ ht => ht.consoleWrite c ir fun _ _ hu => hu.setReg ..

theorem Twins.inpRoutine (ir : Word) : Twins M x y (inpRoutine ir s) (inpRoutine ir s') :=
  h.consoleWriteAll _ ir fun _ _ ht => ht.inpRead ir

theorem Twins.haltRoutine (ir : Word) : Twins M x y (haltRoutine ir s) (haltRoutine ir s') :=
  h.consoleWriteAll _ ir fun _ _ ht => ht.map State.halt (fun _ _ => rfl) rfl rfl

include hM

theorem Twins.loadInto (ir : Word) (dr : Reg) (a : Word) : Twins M x y (loadInto ir dr a s) (loadInto ir dr a s') :=
  h.read hM a ir _ fun v _ _ ht => ht.define dr v

theorem Twins.loadIndirect (ir : Word) (dr : Reg) (a : Word) :
    Twins M x y (loadIndirect ir dr a s) (loadIndirect ir dr a s') :=
  h.read hM a ir _ fun v _ _ ht => ht.loadInto hM ir dr v

theorem Twins.storeIndirect (ir : Word) (sr : Reg) (a : Word) :
    Twins M x y (storeIndirect ir sr a s) (storeIndirect ir sr a s') :=
  h.read hM a ir _ fun v t t' ht => by
    rw [ht.reg_eq sr]
    exact ht.memWrite hM v _

theorem Twins.putsWalk (ir : Word) (n : Nat) (a : Word) : Twins M x y (putsWalk ir n a s) (putsWalk ir n a s') := by
  induction n generalizing a s s' with
  | zero => exact h.waitAt ..
  | succ n ih =>
    refine h.read hM a ir _ fun w t t' ht => ?_
    split
    · exact ht
    · exact ht.consoleWrite _ ir fun u u' hu => ih hu _

theorem Twins.putsFrom (ir a : Word) : Twins M x y (putsFrom ir a s) (putsFrom ir a s') := by
  have hbound : putsBound s' = putsBound s := by obtain ⟨m, d, rfl, -, -⟩ := h; rfl
  unfold Machine.putsFrom
  rw [hbound]
  exact h.putsWalk hM ..

theorem Twins.putspWalk (ir : Word) (n : Nat) (a : Word) : Twins M x y (putspWalk ir n a s) (putspWalk ir n a s') := by
  induction n generalizing a s s' with
  | zero => exact h.waitAt ..
  | succ n ih =>
    refine h.read hM a ir _ fun w t t' ht => ?_
    split
    · exact ht
    · refine ht.consoleWrite _ ir fun u u' hu => ?_
      split
      · exact hu
      · exact hu.consoleWrite _ ir fun v v' hv => ih hv _

theorem Twins.putsRoutine (ir : Word) : Twins M x y (putsRoutine ir s) (putsRoutine ir s') := by
  unfold Machine.putsRoutine
  rw [h.reg_eq .r0]
  exact h.putsFrom hM ..

theorem Twins.putspRoutine (ir : Word) : Twins M x y (putspRoutine ir s) (putspRoutine ir s') := by
  unfold Machine.putspRoutine
  rw [h.reg_eq .r0]
  exact h.putspWalk hM ..

theorem Twins.trapDispatch (v : Byte) (ir : Word) : Twins M x y (trapDispatch v ir s) (trapDispatch v ir s') := by
  unfold Machine.trapDispatch
  split_ifs
  · exact h.getcRoutine ir
  · exact h.outRoutine ir
  · exact h.putsRoutine hM ir
  · exact h.inpRoutine ir
  · exact h.putspRoutine hM ir
  · exact h.haltRoutine ir
  · exact h.raiseAt ..

/-! ### Instructions and steps -/

theorem Twins.execState (i : Instr) : Twins M x y (execState i s) (execState i s') := by
  have hlink : Twins M x y s.trapLinked s'.trapLinked := h.map State.trapLinked (fun _ _ => rfl) rfl rfl
  cases i with
  | addReg | addImm | andReg | andImm | not | lea | jsr | jsrr | jmp | ret | rti | reserved =>
    exact h.map (Machine.execState _) (fun _ _ => rfl) rfl rfl
  | br n z p off =>
    have hcc : s'.cc = s.cc := by obtain ⟨m, d, rfl, -, -⟩ := h; rfl
    simp only [Machine.execState, hcc]
    split
    · exact h.map (fun u => u.setPc (pcRelative off u)) (fun _ _ => rfl) rfl rfl
    · exact h
  | ld dr off => simp only [Machine.execState, h.pcRelative_eq]; exact h.loadInto hM ..
  | ldi dr off => simp only [Machine.execState, h.pcRelative_eq]; exact h.loadIndirect hM ..
  | ldr dr base off => simp only [Machine.execState, h.basePlus_eq]; exact h.loadInto hM ..
  | st sr off => simp only [Machine.execState, h.pcRelative_eq, h.reg_eq]; exact h.memWrite hM ..
  | sti sr off => simp only [Machine.execState, h.pcRelative_eq]; exact h.storeIndirect hM ..
  | str sr base off => simp only [Machine.execState, h.basePlus_eq, h.reg_eq]; exact h.memWrite hM ..
  | trap v => exact hlink.trapDispatch hM ..
  | getc => exact hlink.getcRoutine ..
  | out => exact hlink.outRoutine ..
  | puts => exact hlink.putsRoutine hM ..
  | inp => exact hlink.inpRoutine ..
  | putsp => exact hlink.putspRoutine hM ..
  | halt => exact hlink.haltRoutine ..

theorem Twins.resume (ir : Word) (p : WaitPoint) : Twins M x y (resume ir p s) (resume ir p s') := by
  cases p with
  | load dr a => exact h.loadInto hM ..
  | ldiPointer dr a => exact h.loadIndirect hM ..
  | stiPointer sr a => exact h.storeIndirect hM ..
  | puts a => exact h.putsFrom hM ..
  | putsp a => exact h.putspWalk hM ..
  | getc => exact h.getcRoutine ..
  | inp => exact h.inpRead ..

theorem Twins.fetchExecute {t : State} (hs : fetchExecute s = .next t) :
    ∃ t', fetchExecute s' = .next t' ∧ Twins M x y t t' := by
  have hpc : s'.pc = s.pc := by obtain ⟨m, d, rfl, -, -⟩ := h; rfl
  have hread := h.memRead_cases hM s.pc
  rw [← hpc] at hread
  obtain ⟨v, u, u', e, e', hu⟩ | ⟨e, e'⟩ | ⟨e, e'⟩ := hread
  · have hnext : Twins M x y (u.setPc (s.pc + 1#16)) (u'.setPc (s'.pc + 1#16)) := by
      rw [hpc]
      exact hu.map (State.setPc · _) (fun _ _ => rfl) rfl rfl
    cases hd : decode v with
    | ok i =>
      rw [fetchExecute_ok (hpc ▸ e) hd, exec_next_iff] at hs
      exact ⟨_, (fetchExecute_ok e' hd).trans (exec_eq ..), hs ▸ hnext.execState hM i⟩
    | error r =>
      rw [fetchExecute_error (hpc ▸ e) hd] at hs
      exact ⟨_, fetchExecute_error e' hd, Host.Outcome.next.inj hs ▸ hnext.raiseAt ..⟩
  · rw [fetchExecute_wait (hpc ▸ e)] at hs
    exact ⟨_, fetchExecute_wait e', Host.Outcome.next.inj hs ▸ h.map State.waitInFetch (fun _ _ => rfl) rfl rfl⟩
  · rw [fetchExecute_fail (hpc ▸ e)] at hs
    exact ⟨_, fetchExecute_fail e', Host.Outcome.next.inj hs ▸ h.map State.failInFetch (fun _ _ => rfl) rfl rfl⟩

/-- Twins step alike, to twins. -/
theorem Twins.step {t : State} (hs : step s = .next t) : ∃ t', step s' = .next t' ∧ Twins M x y t t' := by
  have hrun : s'.run = .running := by
    have := running_of_step hs
    obtain ⟨m, d, rfl, -, -⟩ := h
    exact this
  have hhold : s'.hold = s.hold := by obtain ⟨m, d, rfl, -, -⟩ := h; rfl
  have hunhold : Twins M x y s.unhold s'.unhold := h.map State.unhold (fun _ _ => rfl) rfl rfl
  obtain ⟨hfetching, hf⟩ | ⟨ir, p, hwithin, result⟩ := step_cases hs
  · obtain ⟨t', ht', htwins⟩ := hunhold.fetchExecute hM hf
    refine ⟨t', ?_, htwins⟩
    rw [← hhold] at hfetching
    obtain hnone | hfetch := hfetching
    · rwa [step_running_none hrun hnone, ← unhold_eq_self hnone]
    · rwa [step_running_fetch hrun hfetch]
  · subst result
    exact ⟨_, step_running_within hrun (hhold.trans hwithin), hunhold.resume hM ir p⟩

end
end

/-! ### The two relations -/

theorem memoryTwins_eq : MemoryTwins (· = ·) where
  plain h _ _ := by rw [h]
  write h _ _ := by rw [h]

/-- Settles O56: the twins have the same memory, and outputs that grow by the same characters. -/
theorem outputIsNeverObserved : Obligations.OutputIsNeverObserved := fun s t o h => by
  have htwins : Twins (· = ·) s.out o s { s with out := o } :=
    ⟨s.mem, [], by simp [State.withMemOut], rfl, by simp⟩
  obtain ⟨-, ht', m, d, rfl, rfl, hd⟩ := htwins.step memoryTwins_eq h
  exact ⟨d, hd, ht'⟩

/-- Canonical memories that agree but for the cells behind the mapped addresses. -/
def SameButBackingCells (m m' : Memory) : Prop :=
  m.wf = true ∧ m'.wf = true ∧ ∀ a : Word, isPlain a = true → m'.read a.toNat = m.read a.toNat

theorem memoryTwins_backing : MemoryTwins SameButBackingCells where
  plain h := h.2.2
  write {m m'} h a v := by
    obtain ⟨hwf, hwf', hplain⟩ := h
    refine ⟨Memory.wf_write hwf a.isLt v, Memory.wf_write hwf' a.isLt v, fun b hb => ?_⟩
    by_cases hab : b = a
    · rw [hab, Memory.read_write_same hwf, Memory.read_write_same hwf']
    · have hne : b.toNat ≠ a.toNat := fun e => hab (BitVec.eq_of_toNat_eq e)
      rw [Memory.read_write_other m v hne, Memory.read_write_other m' v hne, hplain b hb]

/-- Settles O57: the twins differ in the backing cells alone, and have written the same. -/
theorem backingCellsAreNeverObserved : Obligations.BackingCellsAreNeverObserved := fun s s' t hwf hwf' hsame h => by
  obtain ⟨hrest, hplain⟩ := hsame
  have htwins : Twins SameButBackingCells s.out s.out s s' :=
    ⟨s'.mem, [], by rw [← hrest]; simp [State.withMemOut], ⟨hwf, hwf', hplain⟩, by simp⟩
  obtain ⟨t', ht', m, d, rfl, ⟨-, -, hcells⟩, hd⟩ := htwins.step memoryTwins_backing h
  exact ⟨_, ht', by rw [← hd]; rfl, hcells⟩

end Sys2Proof.Machine
end

section
/-! Memory and the device decoder: canonical memories by their cells, the loader's writes, reads at the mapped
addresses, and the stores (20_memory.md; 43_store.md; 70_reset_and_hazards.md section 1). -/

namespace Sys2Proof.Machine

/-! ### A canonical memory is its cells -/

theorem Memory.read_cons_same (a : Nat) (v : Word) (m : Memory) : Memory.read ((a, v) :: m) a = v := if_pos rfl

theorem Memory.read_cons_other {a b : Nat} (h : a ≠ b) (v : Word) (m : Memory) :
    Memory.read ((a, v) :: m) b = Memory.read m b := if_neg h

/-- Of two memories with the same cells, neither lists a cell below all of the other's. -/
theorem Memory.first_le {lo lo' a b : Nat} {v w : Word} {m m' : Memory} (hm : Memory.wfFrom lo ((a, v) :: m) = true)
    (hm' : Memory.wfFrom lo' ((b, w) :: m') = true)
    (h : ∀ c, c < 65536 → Memory.read ((a, v) :: m) c = Memory.read ((b, w) :: m') c) : b ≤ a := by
  obtain ⟨-, ha, hv, -⟩ := (Memory.wfFrom_cons ..).1 hm
  obtain ⟨-, hb⟩ := (Memory.wfFrom_cons ..).1 hm'
  by_contra hlt
  have hfrom : Memory.wfFrom b ((b, w) :: m') = true := (Memory.wfFrom_cons ..).2 ⟨le_rfl, hb⟩
  have hzero : Memory.read ((b, w) :: m') a = 0#16 := Memory.read_below hfrom (by omega)
  rw [← h a ha, Memory.read_cons_same] at hzero
  exact hv hzero

/-- A memory with a listed cell does not read zero everywhere. -/
theorem Memory.exists_read_ne_zero {lo a : Nat} {v : Word} {m : Memory}
    (hm : Memory.wfFrom lo ((a, v) :: m) = true) : ∃ c, c < 65536 ∧ Memory.read ((a, v) :: m) c ≠ 0#16 := by
  obtain ⟨-, ha, hv, -⟩ := (Memory.wfFrom_cons ..).1 hm
  exact ⟨a, ha, by rwa [Memory.read_cons_same]⟩

theorem Memory.eq_of_read_eq {lo : Nat} {m m' : Memory} (hm : Memory.wfFrom lo m = true)
    (hm' : Memory.wfFrom lo m' = true) (h : ∀ c, c < 65536 → Memory.read m c = Memory.read m' c) : m = m' := by
  induction m generalizing lo m' with
  | nil =>
    cases m' with
    | nil => rfl
    | cons d m' =>
      obtain ⟨c, hc, hne⟩ := Memory.exists_read_ne_zero hm'
      exact absurd (h c hc).symm hne
  | cons d m ih =>
    cases m' with
    | nil =>
      obtain ⟨c, hc, hne⟩ := Memory.exists_read_ne_zero hm
      exact absurd (h c hc) hne
    | cons e m' =>
      obtain ⟨a, v⟩ := d
      obtain ⟨b, w⟩ := e
      obtain rfl : a = b :=
        le_antisymm (Memory.first_le hm' hm fun c hc => (h c hc).symm) (Memory.first_le hm hm' h)
      obtain ⟨-, ha, -, hrest⟩ := (Memory.wfFrom_cons ..).1 hm
      obtain ⟨-, -, -, hrest'⟩ := (Memory.wfFrom_cons ..).1 hm'
      obtain rfl : v = w := by simpa only [Memory.read_cons_same] using h a ha
      rw [ih hrest hrest' fun c hc => ?_]
      by_cases hca : a < c
      · simpa only [Memory.read_cons_other (Nat.ne_of_lt hca)] using h c hc
      · rw [Memory.read_below hrest (by omega), Memory.read_below hrest' (by omega)]

/-- Settles O16: by the first listed cells, which are equal, and the rest. -/
theorem memoriesWithTheSameCellsAreEqual : Obligations.MemoriesWithTheSameCellsAreEqual :=
  fun _ _ hm hm' h => Memory.eq_of_read_eq hm hm' h

/-! ### The loader and reset -/

theorem loaded_append (s : State) (writes : List (Word × Word)) (aw : Word × Word) :
    s.loaded (writes ++ [aw]) = (s.loaded writes).memWrite aw.1 aw.2 := by simp [State.loaded]

theorem loaded_memWf (s : State) (hwf : s.mem.wf = true) (writes : List (Word × Word)) :
    (s.loaded writes).mem.wf = true := by
  induction writes using List.reverseRecOn with
  | nil => exact hwf
  | append_singleton writes aw ih => rw [loaded_append]; exact memWrite_wf _ ih ..

theorem loaded_cell (s : State) (hwf : s.mem.wf = true) (writes : List (Word × Word)) (a : Word) :
    (s.loaded writes).cell a =
      (((writes.filter fun aw => aw.1 == a).getLast?).map Prod.snd).getD (s.cell a) := by
  induction writes using List.reverseRecOn with
  | nil => rfl
  | append_singleton writes aw ih =>
    obtain ⟨b, v⟩ := aw
    rw [loaded_append, List.filter_append]
    by_cases hab : b = a
    · subst hab
      rw [cell_memWrite_same _ (loaded_memWf s hwf writes)]
      simp
    · rw [cell_memWrite_other _ v (Ne.symm hab), ih]
      simp [hab]

theorem loaded_rest (s : State) (writes : List (Word × Word)) (m : Memory) :
    { s.loaded writes with mem := m } = { s with mem := m } := by
  induction writes using List.reverseRecOn with
  | nil => rfl
  | append_singleton writes aw ih => rw [loaded_append, ← ih]; rfl

/-- Settles O15: the last write to a cell is the one that stays, and a write changes memory alone. -/
theorem loadedMemoryHoldsTheLastWrite : Obligations.LoadedMemoryHoldsTheLastWrite := fun entry writes =>
  ⟨loaded_cell { State.reset with pc := entry } rfl writes, loaded_rest ..⟩

/-- Settles O14: by the fields of `State.reset`, where nothing waits and nothing has faulted. -/
theorem resetState : Obligations.ResetState := by
  refine ⟨fun r => ?_, rfl, rfl, rfl, fun _ => rfl, rfl, .of_hold_none reset_mem_wf rfl (by decide)⟩
  cases r <;> rfl

/-! ### The host's moves -/

/-- Soundness does not look at the console. -/
theorem State.Inv.of_console {s : State} (h : s.Inv) (kbd : List Byte) (kbdClosed : Bool) (out : List Byte)
    (outClosed : Bool) :
    { s with kbd := kbd, kbdClosed := kbdClosed, out := out, outClosed := outClosed }.Inv :=
  ⟨h.memWf, h.faultIffFaulted, h.holdRunning, h.holdFetch, h.holdWithin⟩

/-- Settles O13: each move changes the console alone. -/
theorem hostMovesKeepInv : Obligations.HostMovesKeepInv := fun s c hinv => by
  refine ⟨?_, hinv.of_console .., hinv.of_console ..⟩
  unfold State.typeChar
  split
  · exact hinv
  · exact hinv.of_console ..

/-! ### Reads -/

/-- The keyboard status as a number: bit 15 by the queue, the rest free (20_memory.md R34). -/
theorem status_eq (s : State) : kbsrValue Config.kbsrLow (consolePoll s) =
    (if s.kbd = [] then 0x0000#16 else 0x8000#16) + Config.kbsrLow.setWidth 16 := by
  rw [kbsrValue_eq_add, consolePoll]
  cases s.kbd <;> rfl

theorem memRead_status (s : State) :
    memRead Config.kbsrAddr s = .done (kbsrValue Config.kbsrLow (consolePoll s)) s := if_pos rfl

theorem memRead_keyboard_cons {s : State} {c : Byte} {rest : List Byte} (h : s.kbd = c :: rest) :
    memRead Config.kbdrAddr s = .done (zext16 c) (s.setKbd rest) := by
  rw [memRead, if_neg kbdrAddr_ne_kbsrAddr, if_pos rfl, consoleRead_cons h]

theorem memRead_keyboard_empty {s : State} (h : s.kbd = []) :
    memRead Config.kbdrAddr s = if s.kbdClosed then .fail else .wait :=
  memRead_notReady (not_readReady_iff.2 ⟨rfl, h⟩)

/-- Settles O17: the three ranges of the device decoder. -/
theorem readsGoThroughTheDeviceDecoder : Obligations.ReadsGoThroughTheDeviceDecoder := fun s a => by
  refine ⟨?_, ?_, fun hstatus hdata => memRead_plain (isPlain_iff.2 ⟨hstatus, hdata⟩) s⟩
  · rintro rfl
    rw [memRead_status, status_eq]
  · rintro rfl
    refine ⟨fun c rest h => memRead_keyboard_cons h, fun h hopen => ?_, fun h hclosed => ?_⟩
    · rw [memRead_keyboard_empty h, hopen]; rfl
    · rw [memRead_keyboard_empty h, if_pos hclosed]

/-! ### Writes -/

theorem stores_memWrite (s : State) (hwf : s.mem.wf = true) (a v : Word) : Stores a v s (s.memWrite a v) :=
  ⟨cell_memWrite_same s hwf a v, fun _ hb => cell_memWrite_other s v hb, rfl⟩

/-- Settles O18: a read of a mapped address looks at the keyboard, which a write leaves alone. -/
theorem writesChangeOneCell : Obligations.WritesChangeOneCell := fun s a v hwf => by
  refine ⟨stores_memWrite s hwf a v, ?_⟩
  rintro b (rfl | rfl) <;> rfl

/-- Settles O28: ST and STR are one write. -/
theorem storesWriteOneCell : Obligations.StoresWriteOneCell := fun s _ hwf =>
  ⟨fun off => ⟨_, exec_eq (.st _ off) s, stores_memWrite s hwf ..⟩,
    fun base off => ⟨_, exec_eq (.str _ base off) s, stores_memWrite s hwf ..⟩⟩

theorem storeIndirect_ready {a : Word} {s : State} (h : ReadReady a s) (ir : Word) (sr : Reg) :
    storeIndirect ir sr a s = (afterRead a s).memWrite (readValue a s) (s.reg sr) := by
  rw [storeIndirect, memRead_ready h]
  rfl

theorem storeIndirect_empty {s : State} (hk : s.kbd = []) (ir : Word) (sr : Reg) :
    storeIndirect ir sr Config.kbdrAddr s =
      if s.kbdClosed then s.raiseAt .consoleIOFailure ir else s.waitAt ir (.stiPointer sr Config.kbdrAddr) :=
  memRead_andThen_empty rfl hk ..

/-- Settles O29: the pointer read completes and the write follows, or it finds no character. -/
theorem stiStoresThroughThePointer : Obligations.StiStoresThroughThePointer := fun s sr off hwf => by
  refine ⟨fun hready => ⟨_, exec_eq (.sti sr off) s, ?_⟩, fun ha hk => ?_⟩
  · rw [execState, pcRelative, storeIndirect_ready hready]
    exact stores_memWrite (afterRead _ s) hwf ..
  · rw [exec_eq, execState, pcRelative, ha, storeIndirect_empty hk]
    rfl

/-- A plain cell just written is what the next read there gives. -/
theorem memRead_memWrite_same {s : State} (hwf : s.mem.wf = true) {a : Word} (ha : isPlain a = true) (v : Word) :
    memRead a (s.memWrite a v) = .done v (s.memWrite a v) := by
  rw [memRead_plain ha, cell_memWrite_same s hwf]

/-- Settles O30: each of the three writes the cell at pc, and leaves pc. -/
theorem storedWordIsFetchedNext : Obligations.StoredWordIsFetchedNext := fun s t sr hwf hpc => by
  have hnext : memRead s.pc (s.memWrite s.pc (s.reg sr)) = .done (s.reg sr) (s.memWrite s.pc (s.reg sr)) :=
    memRead_memWrite_same hwf hpc _
  refine ⟨fun off ha h => ?_, fun base off ha h => ?_, fun off hplain hpointer h => ?_⟩
  · rw [exec_next_iff.1 h, execState, pcRelative, ha]
    exact hnext
  · rw [exec_next_iff.1 h, execState, basePlus, ha]
    exact hnext
  · obtain ⟨-, hne⟩ := isPlain_iff.1 hplain
    have hready : ReadReady (s.pc + sext off) s := fun e => absurd e hne
    rw [exec_next_iff.1 h, execState, pcRelative, storeIndirect_ready hready, readValue_plain hplain, hpointer,
      afterRead_eq_self hne]
    exact hnext

end Sys2Proof.Machine
end

section
/-! What the operate instructions, LEA and the loads compute (41_operate.md; 42_load.md). -/

namespace Sys2Proof.Machine

theorem defines_define (s : State) (dr : Reg) (v : Word) : Defines dr s (s.define dr v) := by
  refine ⟨?_, (loadOnly_define s dr v).regs, rfl, fun _ => rfl, ⟨rfl, rfl, rfl, rfl⟩, rfl, rfl, rfl⟩
  rw [reg_define_same]
  rfl

/-- Settles O21: both forms define DR as a sum of words, which wraps. -/
theorem addWrapsAndSetsFlags : Obligations.AddWrapsAndSetsFlags := fun s dr sr1 => by
  refine ⟨fun sr2 => ⟨_, exec_eq (.addReg dr sr1 sr2) s, ?_, defines_define ..⟩,
    fun imm5 => ⟨_, exec_eq (.addImm dr sr1 imm5) s, ?_, defines_define ..⟩⟩
  all_goals rw [execState, reg_define_same, BitVec.toNat_add]

/-- Settles O22: both forms define DR as a bitwise conjunction. -/
theorem andIsBitwiseAndSetsFlags : Obligations.AndIsBitwiseAndSetsFlags := fun s dr sr1 => by
  refine ⟨fun sr2 => ⟨_, exec_eq (.andReg dr sr1 sr2) s, fun k => ?_, defines_define ..⟩,
    fun imm5 => ⟨_, exec_eq (.andImm dr sr1 imm5) s, fun k => ?_, defines_define ..⟩⟩
  all_goals rw [execState, reg_define_same, BitVec.getLsbD_and]

/-- Settles O23: the complement of a word is its distance from `0xFFFF`. -/
theorem notComplementsAndSetsFlags : Obligations.NotComplementsAndSetsFlags := fun s dr sr => by
  refine ⟨_, exec_eq (.not dr sr) s, ?_, defines_define ..⟩
  rw [execState, reg_define_same, BitVec.toNat_not]

/-- Settles O24: LEA defines DR as the address it computes. -/
theorem leaWritesTheAddressAndSetsFlags : Obligations.LeaWritesTheAddressAndSetsFlags := fun s dr off =>
  ⟨_, exec_eq (.lea dr off) s, reg_define_same .., defines_define ..⟩

/-! ### Loads -/

theorem loadInto_ready {a : Word} {s : State} (h : ReadReady a s) (ir : Word) (dr : Reg) :
    loadInto ir dr a s = (afterRead a s).define dr (readValue a s) := by
  rw [loadInto, memRead_ready h]
  rfl

theorem loadIndirect_ready {a : Word} {s : State} (h : ReadReady a s) (ir : Word) (dr : Reg) :
    loadIndirect ir dr a s = loadInto ir dr (readValue a s) (afterRead a s) := by
  rw [loadIndirect, memRead_ready h]
  rfl

theorem loadInto_empty {s : State} (hk : s.kbd = []) (ir : Word) (dr : Reg) :
    loadInto ir dr Config.kbdrAddr s =
      if s.kbdClosed then s.raiseAt .consoleIOFailure ir else s.waitAt ir (.load dr Config.kbdrAddr) :=
  memRead_andThen_empty rfl hk ..

theorem loadIndirect_empty {s : State} (hk : s.kbd = []) (ir : Word) (dr : Reg) :
    loadIndirect ir dr Config.kbdrAddr s =
      if s.kbdClosed then s.raiseAt .consoleIOFailure ir else s.waitAt ir (.ldiPointer dr Config.kbdrAddr) :=
  memRead_andThen_empty rfl hk ..

/-- A plain pointer is its cell, and reading it changes nothing. -/
theorem loadIndirect_plain {a : Word} {s : State} (h : isPlain a = true) (ir : Word) (dr : Reg) :
    loadIndirect ir dr a s = loadInto ir dr (s.cell a) s := by
  rw [loadIndirect, memRead_plain h]
  rfl

theorem loadInto_defines {a : Word} {s : State} (h : ReadReady a s) (ir : Word) (dr : Reg) :
    (loadInto ir dr a s).reg dr = readValue a s ∧ Defines dr (afterRead a s) (loadInto ir dr a s) := by
  rw [loadInto_ready h]
  exact ⟨reg_define_same .., defines_define ..⟩

/-- Settles O25: LD and LDR are one read into DR. -/
theorem loadsWriteWhatTheyRead : Obligations.LoadsWriteWhatTheyRead := fun s dr =>
  ⟨fun off h => ⟨_, exec_eq (.ld dr off) s, loadInto_defines h ..⟩,
    fun base off h => ⟨_, exec_eq (.ldr dr base off) s, loadInto_defines h ..⟩⟩

/-- Settles O26: after the pointer LDI is one read into DR. -/
theorem ldiReadsThroughThePointer : Obligations.LdiReadsThroughThePointer := by
  rintro s _ dr off _ hpointer rfl rfl hdatum
  refine ⟨_, exec_eq (.ldi dr off) s, ?_⟩
  rw [execState, pcRelative, loadIndirect_ready hpointer]
  exact loadInto_defines hdatum ..

/-- Settles O27: each of these reads is at the keyboard-data address, LDI's second one after a plain pointer. -/
theorem loadsWaitForOrFailWithoutACharacter : Obligations.LoadsWaitForOrFailWithoutACharacter := fun s dr hk => by
  refine ⟨fun off ha => ?_, fun base off ha => ?_, fun off ha => ?_, fun off hplain hpointer => ?_⟩
  · rw [exec_eq, execState, pcRelative, ha, loadInto_empty hk]; rfl
  · rw [exec_eq, execState, basePlus, ha, loadInto_empty hk]; rfl
  · rw [exec_eq, execState, pcRelative, ha, loadIndirect_empty hk]; rfl
  · rw [exec_eq, execState, pcRelative, loadIndirect_plain hplain, hpointer, loadInto_empty hk]; rfl

end Sys2Proof.Machine
end

section
/-! The control transfers (44_control.md) and the instructions that always fault (46_illegal.md). -/

namespace Sys2Proof.Machine

theorem taken_iff {n z p : Bool} {cc : CC} :
    taken n z p cc = true ↔ (n = true ∧ cc = .n) ∨ (z = true ∧ cc = .z) ∨ (p = true ∧ cc = .p) := by
  simp [taken, or_assoc]

/-- Settles O31: both ways of BR in one state, by its condition. -/
theorem branchIsTakenOnANamedFlag : Obligations.BranchIsTakenOnANamedFlag := fun s n z p off => by
  simp only [exec_eq, execState, taken_iff]
  split <;> rfl

/-- What a call does: R7 and pc, and nothing else. -/
theorem link_frame {s t : State} {target : Word} (h : t = s.link.setPc target) : t.reg .r7 = s.pc ∧ t.pc = target ∧
    SameRegsBut [.r7] s t ∧ t.cc = s.cc ∧ SameCells s t ∧ SameConsole s t ∧ SameControl s t := by
  subst h
  exact ⟨reg_setReg_same s .r7 s.pc, rfl, (consoleOnly_setReg s .r7 s.pc).regs, rfl, fun _ => rfl,
    ⟨rfl, rfl, rfl, rfl⟩, rfl, rfl, rfl⟩

/-- Settles O32: JSR links and goes to its target. -/
theorem jsrLinksAndJumps : Obligations.JsrLinksAndJumps := fun s off => ⟨_, exec_eq (.jsr off) s, link_frame rfl⟩

/-- Settles O33: JSRR reads its base after the link, which changes R7 alone. -/
theorem jsrrLinksThenReadsTheBase : Obligations.JsrrLinksThenReadsTheBase := fun s base => by
  refine ⟨_, exec_eq (.jsrr base) s, ?_⟩
  rw [← reg_link]
  exact link_frame rfl

/-- Settles O34: JMP and RET set pc alone. -/
theorem jmpAndRetGoToTheRegister : Obligations.JmpAndRetGoToTheRegister := fun s =>
  ⟨fun base => exec_eq (.jmp base) s, exec_eq .ret s⟩

/-- The 12 low bits of these words do not overlap the opcode, so the word is their sum. -/
theorem append_low_eq_add (op : BitVec 4) (low : BitVec 12) :
    op ++ low = op.setWidth 16 <<< 12 + low.setWidth 16 := by
  apply BitVec.eq_of_toNat_eq
  have hop := op.isLt
  have hlow := low.isLt
  rw [BitVec.toNat_append, ← Nat.shiftLeft_add_eq_or_of_lt hlow, BitVec.toNat_add, BitVec.toNat_shiftLeft,
    BitVec.toNat_setWidth_of_le (by decide), BitVec.toNat_setWidth_of_le (by decide), Nat.shiftLeft_eq]
  omega

/-- Settles O44: the raised record holds the whole word. -/
theorem rtiAndReservedFault : Obligations.RtiAndReservedFault := fun s low => by
  have hrti : encode (.rti low) = 0x8000#16 + low.setWidth 16 := append_low_eq_add 8#4 low
  have hreserved : encode (.reserved low) = 0xD000#16 + low.setWidth 16 := append_low_eq_add 13#4 low
  rw [← hrti, ← hreserved]
  exact ⟨exec_eq (.rti low) s, exec_eq (.reserved low) s⟩

end Sys2Proof.Machine
end

section
/-! GETC, OUT, IN and HALT (45_trap.md R122, R123, R125, R127): what each does from its first console access on, and the
statements about the TRAP, which runs it after the optional link. -/

namespace Sys2Proof.Machine

/-! ### The routines, case by case -/

section
variable (ir : Word) (s : State)

theorem wrote_nil : s.wrote [] = s := by simp [State.wrote]

theorem consoleWriteAll_closed {s : State} (h : s.outClosed = true) (cs : List Byte) :
    consoleWriteAll cs s = if cs = [] then some s else none := by
  cases cs with
  | nil => simp [consoleWriteAll, wrote_nil]
  | cons c cs => simp [consoleWriteAll, h]

theorem getcRoutine_cons {c : Byte} {rest : List Byte} (h : s.kbd = c :: rest) :
    getcRoutine ir s = (s.setKbd rest).setReg .r0 (zext16 c) := by
  rw [getcRoutine, consoleRead_cons h]
  rfl

theorem getcRoutine_empty (h : s.kbd = []) :
    getcRoutine ir s = if s.kbdClosed then s.raiseAt .consoleIOFailure ir else s.waitAt ir .getc :=
  consoleRead_andThen_empty h ..

theorem outRoutine_open (h : s.outClosed = false) : outRoutine ir s = s.wrote [lowByte (s.reg .r0)] := by
  rw [outRoutine, consoleWrite_open h]
  rfl

theorem outRoutine_closed (h : s.outClosed = true) : outRoutine ir s = s.raiseAt .consoleIOFailure ir := by
  rw [outRoutine, consoleWrite_closed h]
  rfl

theorem inpRead_cons_open {c : Byte} {rest : List Byte} (h : s.kbd = c :: rest) (ho : s.outClosed = false) :
    inpRead ir s = ((s.setKbd rest).wrote [c]).setReg .r0 (zext16 c) := by
  have ho' : (s.setKbd rest).outClosed = false := ho
  rw [inpRead, consoleRead_cons h, andThen_done, consoleWrite_open ho']
  rfl

/-- The echo fails after the character is taken. -/
theorem inpRead_cons_closed {c : Byte} {rest : List Byte} (h : s.kbd = c :: rest) (hc : s.outClosed = true) :
    inpRead ir s = (s.setKbd rest).raiseAt .consoleIOFailure ir := by
  have hc' : (s.setKbd rest).outClosed = true := hc
  rw [inpRead, consoleRead_cons h, andThen_done, consoleWrite_closed hc']
  rfl

theorem inpRead_empty (h : s.kbd = []) :
    inpRead ir s = if s.kbdClosed then s.raiseAt .consoleIOFailure ir else s.waitAt ir .inp :=
  consoleRead_andThen_empty h ..

theorem inpRoutine_open (h : s.outClosed = false) : inpRoutine ir s = inpRead ir (s.wrote Config.inPrompt) := by
  rw [inpRoutine, consoleWriteAll_open h]
  rfl

theorem inpRoutine_closed (h : s.outClosed = true) : inpRoutine ir s =
    if Config.inPrompt = [] then inpRead ir s else s.raiseAt .consoleIOFailure ir := by
  rw [inpRoutine, consoleWriteAll_closed h]
  split <;> rfl

theorem haltRoutine_open (h : s.outClosed = false) : haltRoutine ir s = (s.wrote Config.haltNotice).halt := by
  rw [haltRoutine, consoleWriteAll_open h]
  rfl

theorem haltRoutine_closed (h : s.outClosed = true) : haltRoutine ir s =
    if Config.haltNotice = [] then s.halt else s.raiseAt .consoleIOFailure ir := by
  rw [haltRoutine, consoleWriteAll_closed h]
  split <;> rfl

end

/-! ### The link leaves the operand alone -/

theorem trapLinked_r0 (s : State) : s.trapLinked.reg .r0 = s.reg .r0 := by
  rw [reg_trapLinked, if_neg (by decide)]

theorem consoleOnly_taken_linked {s : State} {c : Byte} {rest : List Byte} (h : s.kbd = c :: rest) :
    ConsoleOnly [] s.trapLinked (s.trapLinked.setKbd rest) := consoleOnly_taken h

theorem ConsoleOnly.ia_eq {rs : List Reg} {s u : State} (h : ConsoleOnly rs s.trapLinked u) : u.ia = s.pc - 1#16 :=
  congrArg (· - 1#16) h.pc

/-! ### On an open display -/

/-- Settles O36: after the link one character is taken, into R0. -/
theorem getcReadsACharacter : Obligations.GetcReadsACharacter := fun s c rest hk => by
  have hrun : execState .getc s = (s.trapLinked.setKbd rest).setReg .r0 (zext16 c) := getcRoutine_cons _ s.trapLinked hk
  refine ⟨_, exec_eq .getc s, ?_⟩
  rw [hrun]
  exact ⟨reg_setReg_same .., rfl, rfl, ⟨rfl, rfl, rfl⟩,
    ((consoleOnly_taken_linked hk).any.trans (consoleOnly_setReg ..)).trapFrame (by decide)⟩

/-- Settles O37: after the link the prompt is written, a character taken and echoed, and R0 set. -/
theorem inPromptsReadsAndEchoes : Obligations.InPromptsReadsAndEchoes := fun s c rest hk ho => by
  have hrun : execState .inp s =
      (((s.trapLinked.wrote Config.inPrompt).setKbd rest).wrote [c]).setReg .r0 (zext16 c) :=
    (inpRoutine_open _ s.trapLinked ho).trans (inpRead_cons_open _ _ hk ho)
  have hframe := (inpRoutine_only (trapWord 0x23#8) s.trapLinked).trapFrame (by decide)
  refine ⟨_, exec_eq .inp s, ?_, ?_, ?_, ?_, hframe⟩
  all_goals rw [hrun]
  · exact reg_setReg_same ..
  · rfl
  · rfl
  · exact ⟨rfl, rfl, rfl⟩

/-- A TRAP whose read in `u` finds no character waits there, or fails once the keyboard is closed, with everything else
as it was in `u`. -/
theorem trap_empty {s t : State} {ir : Word} {p : WaitPoint} (u : State) (honly : ConsoleOnly [] s.trapLinked u)
    (hcontrol : SameControl s u) (hk : u.kbd = [])
    (ht : t = if u.kbdClosed then u.raiseAt .consoleIOFailure ir else u.waitAt ir p) :
    t.out = u.out ∧ t.kbd = [] ∧ TrapFrame [] s t ∧
      (s.kbdClosed = false → t.hold = some (.within ir p) ∧ t.run = s.run ∧ t.fault = s.fault) ∧
      (s.kbdClosed = true → t.hold = s.hold ∧ t.run = .faulted ∧
        t.fault = some ⟨.consoleIOFailure, s.pc - 1#16, some ir⟩) := by
  have hclosed : u.kbdClosed = s.kbdClosed := honly.console.kbdClosed
  obtain ⟨hrun, hfault, hhold⟩ := hcontrol
  rw [hclosed] at ht
  subst ht
  cases s.kbdClosed with
  | true =>
    refine ⟨rfl, hk, (honly.trans (consoleOnly_raiseAt ..)).trapFrame (by decide), nofun, fun _ => ⟨hhold, rfl, ?_⟩⟩
    rw [← honly.ia_eq]
    rfl
  | false =>
    exact ⟨rfl, hk, (honly.trans (consoleOnly_waitAt ..)).trapFrame (by decide), fun _ => ⟨rfl, hrun, hfault⟩, nofun⟩

/-- Settles O38: GETC's read is right after the link, IN's after the prompt. -/
theorem getcAndInWaitOrFailWithoutACharacter : Obligations.GetcAndInWaitOrFailWithoutACharacter := fun s hk => by
  refine ⟨⟨_, exec_eq .getc s, ?_⟩, fun ho => ⟨_, exec_eq .inp s, ?_⟩⟩
  · exact trap_empty s.trapLinked (.refl [] _) ⟨rfl, rfl, rfl⟩ hk (getcRoutine_empty _ s.trapLinked hk)
  · exact trap_empty _ (consoleOnly_written s.trapLinked Config.inPrompt) ⟨rfl, rfl, rfl⟩ hk
      ((inpRoutine_open _ s.trapLinked ho).trans (inpRead_empty _ _ hk))

/-- Settles O39: after the link the low byte of R0 is written. -/
theorem outWritesTheLowByte : Obligations.OutWritesTheLowByte := fun s ho => by
  have hrun : execState .out s = s.trapLinked.wrote [lowByte (s.reg .r0)] := by
    rw [← trapLinked_r0]
    exact outRoutine_open _ s.trapLinked ho
  refine ⟨_, exec_eq .out s, ?_⟩
  rw [hrun]
  exact ⟨rfl, rfl, ⟨rfl, rfl, rfl⟩, (consoleOnly_written ..).trapFrame (by decide)⟩

/-- Settles O42: after the link the notice is written, and `run` set. -/
theorem haltStopsTheMachine : Obligations.HaltStopsTheMachine := fun s ho => by
  have hrun : execState .halt s = (s.trapLinked.wrote Config.haltNotice).halt := haltRoutine_open _ s.trapLinked ho
  refine ⟨_, exec_eq .halt s, ?_⟩
  rw [hrun]
  exact ⟨rfl, rfl, rfl, rfl, rfl, ((consoleOnly_written ..).trans (consoleOnly_halt _)).trapFrame (by decide)⟩

/-- Settles O45: after the link the write is refused. -/
theorem outFailsOnAClosedDisplay : Obligations.OutFailsOnAClosedDisplay := fun s hc => by
  have hrun : execState .out s = s.trapLinked.raiseAt .consoleIOFailure (trapWord 0x21#8) :=
    outRoutine_closed _ s.trapLinked hc
  refine ⟨_, exec_eq .out s, ?_⟩
  rw [hrun]
  exact ⟨rfl, rfl, rfl, ⟨rfl, rfl, rfl, rfl⟩, (consoleOnly_raiseAt ..).trapFrame (by decide)⟩

end Sys2Proof.Machine
end

section
/-! PUTS and PUTSP (45_trap.md R124, R126): one cell of the walk by what its read gives, then whole strings. -/

namespace Sys2Proof.Machine

/-! ### What a cell of the walk reads -/

theorem readReady_of_ne {a : Word} (h : a ≠ Config.kbdrAddr) (s : State) : ReadReady a s := fun e => absurd e h

theorem readReady_keyboard {s : State} {c : Byte} {rest : List Byte} (h : s.kbd = c :: rest) (a : Word) :
    ReadReady a s := fun _ => by simp [h]

theorem readValue_status (s : State) : readValue Config.kbsrAddr s =
    (if s.kbd = [] then 0x0000#16 else 0x8000#16) + Config.kbsrLow.setWidth 16 := status_eq s

theorem readValue_keyboard {s : State} {c : Byte} {rest : List Byte} (h : s.kbd = c :: rest) :
    readValue Config.kbdrAddr s = zext16 c := by
  rw [readValue, if_neg kbdrAddr_ne_kbsrAddr, if_pos rfl, h]
  rfl

theorem afterRead_keyboard {s : State} {c : Byte} {rest : List Byte} (h : s.kbd = c :: rest) :
    afterRead Config.kbdrAddr s = s.setKbd rest := by
  rw [afterRead, kbdAfterRead, if_pos rfl, h]
  rfl

theorem zext16_eq_zero {c : Byte} : zext16 c = 0x0000#16 ↔ c = 0x00#8 :=
  ⟨fun h => by rw [← lowByte_zext16 c, h]; rfl, fun h => by rw [h]; rfl⟩

theorem wrote_wrote (s : State) (cs ds : List Byte) : (s.wrote cs).wrote ds = s.wrote (cs ++ ds) := by
  simp [State.wrote]

/-! ### One cell of PUTS -/

section
variable {a : Word} {s : State} (ir : Word)

theorem putsFrom_ready (h : ReadReady a s) : putsFrom ir a s =
    if readValue a s = 0x0000#16 then afterRead a s
    else andThenWritten (consoleWrite (lowByte (readValue a s)) (afterRead a s)) (afterRead a s) ir
      fun u => putsFrom ir (a + 1#16) u := by
  rw [putsFrom_unfold, memRead_ready h]
  rfl

theorem putsFrom_zero (h : ReadReady a s) (hv : readValue a s = 0x0000#16) : putsFrom ir a s = afterRead a s := by
  rw [putsFrom_ready ir h, if_pos hv]

theorem putsFrom_next (h : ReadReady a s) (hv : readValue a s ≠ 0x0000#16) (ho : s.outClosed = false) :
    putsFrom ir a s = putsFrom ir (a + 1#16) ((afterRead a s).wrote [lowByte (readValue a s)]) := by
  have ho' : (afterRead a s).outClosed = false := ho
  rw [putsFrom_ready ir h, if_neg hv, consoleWrite_open ho']
  rfl

theorem putsFrom_closed (h : ReadReady a s) (hc : s.outClosed = true) : putsFrom ir a s =
    if readValue a s = 0x0000#16 then afterRead a s else (afterRead a s).raiseAt .consoleIOFailure ir := by
  have hc' : (afterRead a s).outClosed = true := hc
  rw [putsFrom_ready ir h, consoleWrite_closed hc']
  rfl

/-! ### One cell of PUTSP -/

theorem putspFrom_ready (h : ReadReady a s) : putspFrom ir a s =
    if lowByte (readValue a s) = 0x00#8 then afterRead a s
    else andThenWritten (consoleWrite (lowByte (readValue a s)) (afterRead a s)) (afterRead a s) ir fun u =>
      if highByte (readValue a s) = 0x00#8 then u
      else andThenWritten (consoleWrite (highByte (readValue a s)) u) u ir fun v => putspFrom ir (a + 1#16) v := by
  rw [putspFrom_unfold, memRead_ready h]
  rfl

theorem putspFrom_zero (h : ReadReady a s) (hlow : lowByte (readValue a s) = 0x00#8) :
    putspFrom ir a s = afterRead a s := by
  rw [putspFrom_ready ir h, if_pos hlow]

theorem putspFrom_last (h : ReadReady a s) (hlow : lowByte (readValue a s) ≠ 0x00#8)
    (hhigh : highByte (readValue a s) = 0x00#8) (ho : s.outClosed = false) :
    putspFrom ir a s = (afterRead a s).wrote [lowByte (readValue a s)] := by
  have ho' : (afterRead a s).outClosed = false := ho
  rw [putspFrom_ready ir h, if_neg hlow, consoleWrite_open ho', andThenWritten_some, if_pos hhigh]

theorem putspFrom_next (h : ReadReady a s) (hlow : lowByte (readValue a s) ≠ 0x00#8)
    (hhigh : highByte (readValue a s) ≠ 0x00#8) (ho : s.outClosed = false) : putspFrom ir a s =
      putspFrom ir (a + 1#16) ((afterRead a s).wrote [lowByte (readValue a s), highByte (readValue a s)]) := by
  have ho' : (afterRead a s).outClosed = false := ho
  have ho'' : ((afterRead a s).wrote [lowByte (readValue a s)]).outClosed = false := ho
  rw [putspFrom_ready ir h, if_neg hlow, consoleWrite_open ho', andThenWritten_some, if_neg hhigh,
    consoleWrite_open ho'', andThenWritten_some, wrote_wrote]
  rfl

theorem putspFrom_closed (h : ReadReady a s) (hc : s.outClosed = true) : putspFrom ir a s =
    if lowByte (readValue a s) = 0x00#8 then afterRead a s else (afterRead a s).raiseAt .consoleIOFailure ir := by
  have hc' : (afterRead a s).outClosed = true := hc
  rw [putspFrom_ready ir h, consoleWrite_closed hc']
  rfl

end

theorem putsFrom_empty {s : State} (h : s.kbd = []) (ir : Word) : putsFrom ir Config.kbdrAddr s =
    if s.kbdClosed then s.raiseAt .consoleIOFailure ir else s.waitAt ir (.puts Config.kbdrAddr) :=
  resume_empty (.puts Config.kbdrAddr) s rfl h ir

theorem putspFrom_empty {s : State} (h : s.kbd = []) (ir : Word) : putspFrom ir Config.kbdrAddr s =
    if s.kbdClosed then s.raiseAt .consoleIOFailure ir else s.waitAt ir (.putsp Config.kbdrAddr) :=
  resume_empty (.putsp Config.kbdrAddr) s rfl h ir

/-! ### Cell by cell -/

theorem execState_puts (s : State) : execState .puts s = putsFrom 0xF022#16 (s.reg .r0) s.trapLinked := by
  rw [← trapLinked_r0]
  rfl

theorem execState_putsp (s : State) : execState .putsp s = putspFrom 0xF024#16 (s.reg .r0) s.trapLinked := by
  rw [← trapLinked_r0]
  rfl

/-- Settles O58: away from the keyboard data a read leaves the state; there it takes the character it gives. -/
theorem putsGoesCellByCell : Obligations.PutsGoesCellByCell := fun ir a s => by
  refine ⟨(exec_eq .puts s).trans (congrArg _ (execState_puts s)), fun hrun hhold => step_running_within hrun hhold,
    fun hplain => ?_, ?_, ?_⟩
  · obtain ⟨-, hne⟩ := isPlain_iff.1 hplain
    have hready := readReady_of_ne hne s
    rw [← readValue_plain hplain]
    refine ⟨fun hv => ?_, fun hv ho => ?_⟩
    · rw [putsFrom_zero ir hready hv, afterRead_eq_self hne]
    · rw [putsFrom_next ir hready hv ho, afterRead_eq_self hne]
      rfl
  · rintro rfl v rfl
    have hready := readReady_of_ne kbsrAddr_ne_kbdrAddr s
    rw [← readValue_status]
    refine ⟨fun hv => ?_, fun hv ho => ?_⟩
    · rw [putsFrom_zero ir hready hv, afterRead_eq_self kbsrAddr_ne_kbdrAddr]
    · rw [putsFrom_next ir hready hv ho, afterRead_eq_self kbsrAddr_ne_kbdrAddr]
      rfl
  · rintro rfl
    refine ⟨fun rest hk => ?_, fun c rest hk hc ho => ?_, fun hk hopen => ?_, fun hk hclosed => ?_⟩
    · rw [putsFrom_zero ir (readReady_keyboard hk _) (by rw [readValue_keyboard hk]; rfl), afterRead_keyboard hk]
      rfl
    · rw [putsFrom_next ir (readReady_keyboard hk _) (by rw [readValue_keyboard hk]; exact mt zext16_eq_zero.1 hc) ho,
        readValue_keyboard hk, lowByte_zext16, afterRead_keyboard hk]
      rfl
    · rw [putsFrom_empty hk, if_neg (by rw [hopen]; decide)]
      rfl
    · rw [putsFrom_empty hk, if_pos hclosed]
      rfl

/-- Settles O59: as O58, and the character read at the keyboard data has a zero high byte, so the walk ends there. -/
theorem putspGoesCellByCell : Obligations.PutspGoesCellByCell := fun ir a s => by
  refine ⟨(exec_eq .putsp s).trans (congrArg _ (execState_putsp s)), fun hrun hhold => step_running_within hrun hhold,
    fun v hv => ?_, ?_⟩
  · have hne : a ≠ Config.kbdrAddr := by
      obtain ⟨hplain, -⟩ | ⟨rfl, -⟩ := hv
      · exact (isPlain_iff.1 hplain).2
      · exact kbsrAddr_ne_kbdrAddr
    have hvalue : readValue a s = v := by
      obtain ⟨hplain, rfl⟩ | ⟨rfl, rfl⟩ := hv
      · exact readValue_plain hplain s
      · exact readValue_status s
    have hready := readReady_of_ne hne s
    rw [← hvalue]
    refine ⟨fun hlow => ?_, fun hlow hhigh ho => ?_, fun hlow hhigh ho => ?_⟩
    · rw [putspFrom_zero ir hready hlow, afterRead_eq_self hne]
    · rw [putspFrom_last ir hready hlow hhigh ho, afterRead_eq_self hne]
      rfl
    · rw [putspFrom_next ir hready hlow hhigh ho, afterRead_eq_self hne]
      rfl
  · rintro rfl
    refine ⟨fun rest hk => ?_, fun c rest hk hc ho => ?_, fun hk hopen => ?_, fun hk hclosed => ?_⟩
    · rw [putspFrom_zero ir (readReady_keyboard hk _) (by rw [readValue_keyboard hk]; rfl), afterRead_keyboard hk]
      rfl
    · rw [putspFrom_last ir (readReady_keyboard hk _) (by rwa [readValue_keyboard hk, lowByte_zext16])
        (by rw [readValue_keyboard hk, highByte_zext16]) ho, readValue_keyboard hk, lowByte_zext16,
        afterRead_keyboard hk]
      rfl
    · rw [putspFrom_empty hk, if_neg (by rw [hopen]; decide)]
      rfl
    · rw [putspFrom_empty hk, if_pos hclosed]
      rfl

/-! ### Whole strings over plain cells -/

theorem cellsFrom_congr (s t : State) (h : t.mem = s.mem) (a : Word) (n : Nat) : cellsFrom t a n = cellsFrom s a n := by
  induction n generalizing a with
  | zero => rfl
  | succ n ih => rw [cellsFrom, cellsFrom, ih, cell_congr h]

theorem cellsFrom_wrote (s : State) (cs : List Byte) (a : Word) (n : Nat) :
    cellsFrom (s.wrote cs) a n = cellsFrom s a n := cellsFrom_congr s (s.wrote cs) rfl a n

theorem cellsFrom_trapLinked (s : State) (a : Word) (n : Nat) : cellsFrom s.trapLinked a n = cellsFrom s a n :=
  cellsFrom_congr s s.trapLinked rfl a n

theorem plainFrom_succ {a : Word} {n : Nat} (h : plainFrom a (n + 1) = true) :
    isPlain a = true ∧ plainFrom (a + 1#16) n = true := (Bool.and_eq_true ..).mp h

/-- The address after `n + 1` cells, from the first or from the second. -/
theorem add_succ_ofNat (a : Word) (n : Nat) : a + BitVec.ofNat 16 (n + 1) = a + 1#16 + BitVec.ofNat 16 n := by
  rw [BitVec.add_assoc, BitVec.ofNat_add, BitVec.add_comm 1#16]

theorem putsFrom_string (ir : Word) (n : Nat) (a : Word) (s : State) (ho : s.outClosed = false)
    (hplain : plainFrom a (n + 1) = true) (hcells : ∀ w ∈ cellsFrom s a n, w ≠ 0x0000#16)
    (hend : s.cell (a + BitVec.ofNat 16 n) = 0x0000#16) :
    putsFrom ir a s = s.wrote ((cellsFrom s a n).map lowByte) := by
  induction n generalizing a s with
  | zero =>
    obtain ⟨ha, -⟩ := plainFrom_succ hplain
    obtain ⟨-, hne⟩ := isPlain_iff.1 ha
    rw [BitVec.add_zero] at hend
    rw [putsFrom_zero ir (readReady_of_ne hne s) (by rwa [readValue_plain ha]), afterRead_eq_self hne]
    exact (wrote_nil s).symm
  | succ n ih =>
    obtain ⟨ha, hplain'⟩ := plainFrom_succ hplain
    obtain ⟨-, hne⟩ := isPlain_iff.1 ha
    obtain ⟨hcell, hcells'⟩ := List.forall_mem_cons.1 hcells
    rw [add_succ_ofNat] at hend
    rw [putsFrom_next ir (readReady_of_ne hne s) (by rwa [readValue_plain ha]) ho, afterRead_eq_self hne,
      readValue_plain ha, ih (a + 1#16) (s.wrote _) ho hplain' (by rwa [cellsFrom_wrote]) hend, wrote_wrote,
      cellsFrom_wrote]
    rfl

theorem putspFrom_string (ir : Word) (n : Nat) (a : Word) (s : State) (ho : s.outClosed = false)
    (hplain : plainFrom a (n + 1) = true) (hcells : ∀ w ∈ cellsFrom s a n, lowByte w ≠ 0x00#8 ∧ highByte w ≠ 0x00#8)
    (hend : lowByte (s.cell (a + BitVec.ofNat 16 n)) = 0x00#8 ∨ highByte (s.cell (a + BitVec.ofNat 16 n)) = 0x00#8) :
    putspFrom ir a s = s.wrote (packedChars (cellsFrom s a (n + 1))) := by
  induction n generalizing a s with
  | zero =>
    obtain ⟨ha, -⟩ := plainFrom_succ hplain
    obtain ⟨-, hne⟩ := isPlain_iff.1 ha
    have hready := readReady_of_ne hne s
    rw [BitVec.add_zero, ← readValue_plain ha] at hend
    simp only [cellsFrom, packedChars, ← readValue_plain ha]
    by_cases hlow : lowByte (readValue a s) = 0x00#8
    · rw [putspFrom_zero ir hready hlow, afterRead_eq_self hne, if_pos hlow, wrote_nil]
    · have hhigh := hend.resolve_left hlow
      rw [putspFrom_last ir hready hlow hhigh ho, afterRead_eq_self hne, if_neg hlow, if_pos hhigh]
  | succ n ih =>
    obtain ⟨ha, hplain'⟩ := plainFrom_succ hplain
    obtain ⟨-, hne⟩ := isPlain_iff.1 ha
    obtain ⟨⟨hlow, hhigh⟩, hcells'⟩ := List.forall_mem_cons.1 hcells
    rw [add_succ_ofNat] at hend
    rw [cellsFrom, packedChars, if_neg hlow, if_neg hhigh]
    rw [← readValue_plain ha] at hlow hhigh ⊢
    rw [putspFrom_next ir (readReady_of_ne hne s) hlow hhigh ho, afterRead_eq_self hne,
      ih (a + 1#16) (s.wrote _) ho hplain' (by rwa [cellsFrom_wrote]) hend, wrote_wrote, cellsFrom_wrote]
    rfl

/-- A TRAP that only writes characters after its link. -/
theorem trap_wrote {i : Instr} {s : State} {cs : List Byte} (h : execState i s = s.trapLinked.wrote cs) :
    ∃ t, exec i s = .next t ∧ t.out = s.out ++ cs ∧ t.kbd = s.kbd ∧ SameControl s t ∧ TrapFrame [] s t :=
  ⟨_, (exec_eq i s).trans (congrArg _ h), rfl, rfl, ⟨rfl, rfl, rfl⟩, (consoleOnly_written ..).trapFrame (by decide)⟩

/-- Settles O40: by induction over the cells, from R0. -/
theorem putsWritesTheString : Obligations.PutsWritesTheString := fun s n ho hplain hcells hend => by
  rw [← cellsFrom_trapLinked] at hcells ⊢
  exact trap_wrote ((execState_puts s).trans (putsFrom_string _ n _ s.trapLinked ho hplain hcells hend))

/-- Settles O41: by induction over the cells, from R0. -/
theorem putspWritesThePackedString : Obligations.PutspWritesThePackedString := fun s n ho hplain hcells hend => by
  rw [← cellsFrom_trapLinked] at hcells ⊢
  exact trap_wrote ((execState_putsp s).trans (putspFrom_string _ n _ s.trapLinked ho hplain hcells hend))

end Sys2Proof.Machine
end

section
/-! The routines on a closed display (20_memory.md R42, 92 D19): the first write fails, with what was read before it
already taken. -/

namespace Sys2Proof.Machine

/-- A TRAP that fails in `u`, where it has written nothing yet. -/
theorem trapFails_raiseAt {s u : State} (honly : ConsoleOnly [] s.trapLinked u) (hhold : u.hold = s.hold)
    (hout : u.out = s.out) (ir : Word) : TrapFails ir s (u.raiseAt .consoleIOFailure ir) := by
  refine ⟨rfl, ?_, hhold, hout, (honly.trans (consoleOnly_raiseAt ..)).trapFrame (by decide)⟩
  rw [← honly.ia_eq]
  rfl

/-- PUTS and PUTSP on a closed display: nothing to write, or a failure after the first read. -/
theorem trap_firstCell {i : Instr} {s : State} {ir : Word} {nothing : Prop} [Decidable nothing]
    (h : execState i s = if nothing then afterRead (s.reg .r0) s.trapLinked
      else (afterRead (s.reg .r0) s.trapLinked).raiseAt .consoleIOFailure ir) :
    ∃ t, exec i s = .next t ∧ t.kbd = kbdAfterRead (s.reg .r0) s ∧
      if nothing then SameControl s t ∧ t.out = s.out ∧ TrapFrame [] s t else TrapFails ir s t := by
  have hread := consoleOnly_afterRead (s.reg .r0) s.trapLinked
  refine ⟨_, exec_eq i s, ?_⟩
  rw [h]
  by_cases hn : nothing
  · rw [if_pos hn, if_pos hn]
    exact ⟨rfl, ⟨rfl, rfl, rfl⟩, rfl, hread.trapFrame (by decide)⟩
  · rw [if_neg hn, if_neg hn]
    exact ⟨rfl, trapFails_raiseAt hread rfl rfl ir⟩

/-- IN on a closed display, after the link: its read, if there is no prompt to write. -/
theorem execState_inp_closed {s : State} (hc : s.outClosed = true) : execState .inp s =
    if Config.inPrompt = [] then inpRead (trapWord 0x23#8) s.trapLinked
    else s.trapLinked.raiseAt .consoleIOFailure (trapWord 0x23#8) := inpRoutine_closed _ s.trapLinked hc

theorem execState_halt_closed {s : State} (hc : s.outClosed = true) : execState .halt s =
    if Config.haltNotice = [] then s.trapLinked.halt
    else s.trapLinked.raiseAt .consoleIOFailure (trapWord 0x25#8) := haltRoutine_closed _ s.trapLinked hc

/-- A walk resumed at the keyboard data takes the character, and then has nothing to write or fails. -/
theorem resume_walk_closed (s : State) {c : Byte} {rest : List Byte} {p : WaitPoint} (hk : s.kbd = c :: rest)
    (hc : s.outClosed = true) (hp : p = .puts Config.kbdrAddr ∨ p = .putsp Config.kbdrAddr) (ir : Word) :
    resume ir p s = if c = 0x00#8 then s.setKbd rest else (s.setKbd rest).raiseAt .consoleIOFailure ir := by
  have hready := readReady_keyboard hk Config.kbdrAddr
  obtain rfl | rfl := hp
  · rw [resume, putsFrom_closed ir hready hc, readValue_keyboard hk, afterRead_keyboard hk]
    simp only [zext16_eq_zero]
  · rw [resume, putspFrom_closed ir hready hc, readValue_keyboard hk, afterRead_keyboard hk, lowByte_zext16]

/-- Settles O60: IN stops at its prompt or, after an empty one, as its read does; PUTS and PUTSP stop at their first
character; HALT at its notice. -/
theorem routinesFailOnAClosedDisplay : Obligations.RoutinesFailOnAClosedDisplay := fun s hc => by
  have hlinked : ConsoleOnly [] s.trapLinked s.trapLinked := .refl ..
  have hempty : s.kbd = [] → inpRead (trapWord 0x23#8) s.trapLinked = if s.kbdClosed then
      s.trapLinked.raiseAt .consoleIOFailure (trapWord 0x23#8) else s.trapLinked.waitAt (trapWord 0x23#8) .inp :=
    fun hk => inpRead_empty _ s.trapLinked hk
  refine ⟨fun c rest hk => ⟨_, exec_eq .inp s, ?_⟩, fun hk hclosed => ⟨_, exec_eq .inp s, ?_⟩,
    fun hk hopen => ⟨_, exec_eq .inp s, ?_⟩, fun hr => trap_firstCell ?_, fun hr => trap_firstCell ?_,
    ⟨_, exec_eq .halt s, ?_⟩, fun ir c rest hrun hk => ⟨fun hhold => ?_, fun hhold => ?_⟩⟩
  · rw [execState_inp_closed hc, inpRead_cons_closed _ s.trapLinked hk hc]
    split
    · exact ⟨trapFails_raiseAt (consoleOnly_taken_linked hk) rfl rfl _, rfl⟩
    · exact ⟨trapFails_raiseAt hlinked rfl rfl _, rfl⟩
  · rw [execState_inp_closed hc, hempty hk, if_pos hclosed, ite_self]
    exact ⟨trapFails_raiseAt hlinked rfl rfl _, hk⟩
  · rw [execState_inp_closed hc, hempty hk, hopen, if_neg Bool.false_ne_true]
    split
    · exact ⟨hk, rfl, rfl, rfl, rfl, (consoleOnly_waitAt ..).trapFrame (by decide)⟩
    · exact ⟨hk, trapFails_raiseAt hlinked rfl rfl _⟩
  · exact (execState_puts s).trans (putsFrom_closed _ hr hc)
  · exact (execState_putsp s).trans (putspFrom_closed _ hr hc)
  · rw [execState_halt_closed hc]
    split
    · exact ⟨rfl, rfl, rfl, rfl, rfl, (consoleOnly_halt _).trapFrame (by decide)⟩
    · exact ⟨rfl, trapFails_raiseAt hlinked rfl rfl _⟩
  · rw [step_running_within hrun hhold, resume, inpRead_cons_closed _ s.unhold hk hc]
    rfl
  · obtain hhold | hhold := hhold
    · rw [step_running_within hrun hhold, resume_walk_closed s.unhold hk hc (.inl rfl)]
      rfl
    · rw [step_running_within hrun hhold, resume_walk_closed s.unhold hk hc (.inr rfl)]
      rfl

end Sys2Proof.Machine
end

section
/-! The step by what its fetch reads (40_fetch_execute.md R70, R71; 46_illegal.md R142). -/

namespace Sys2Proof.Machine

/-- A step that does not go on inside an instruction fetches, from the state without a wait. -/
theorem step_fetching {s : State} (hrun : s.run = .running) (h : s.hold = none ∨ s.hold = some .fetch) :
    step s = fetchExecute s.unhold := by
  obtain hnone | hfetch := h
  · rw [step_running_none hrun hnone, unhold_eq_self hnone]
  · exact step_running_fetch hrun hfetch

/-- Settles O6: the record's address is the incremented pc less one. -/
theorem stepRunsTheDecodedInstruction : Obligations.StepRunsTheDecodedInstruction := fun s u ir hrun hread hhold => by
  rw [step_fetching hrun hhold]
  have hread' : memRead s.unhold.pc s.unhold = .done ir u := hread
  refine ⟨fun i hd => fetchExecute_ok hread' hd, fun r hd => ?_⟩
  rw [fetchExecute_error hread' hd, State.raiseIllegal, State.raiseAt, State.ia, setPc_pc, unhold_pc,
    BitVec.add_sub_cancel]
  rfl

/-- Settles O7: a plain read gives the cell and leaves the state. -/
theorem plainFetchRunsTheStoredInstruction : Obligations.PlainFetchRunsTheStoredInstruction :=
  fun s i hrun hhold hplain hd => by
    rw [step_running_none hrun hhold]
    exact fetchExecute_ok (memRead_plain hplain s) hd

/-- A character is a never-taken branch: the bits above its own are zero (30_encoding.md R57). -/
theorem encode_never_taken (c : Byte) : encode (.br false false false (c.setWidth 9)) = zext16 c :=
  calc encode (.br false false false (c.setWidth 9)) = 0#7 ++ c.setWidth 9 := rfl
    _ = (c.setWidth 9).setWidth 16 := (BitVec.setWidth_eq_append (by decide)).symm
    _ = zext16 c := BitVec.setWidth_setWidth (by decide)

/-- Settles O8: by the three ways of a read at the keyboard data. -/
theorem fetchAtTheKeyboardDataAddress : Obligations.FetchAtTheKeyboardDataAddress := fun s hrun hhold hpc => by
  rw [step_running_none hrun hhold]
  refine ⟨fun c rest hk => ?_, fun hk hopen => ?_, fun hk hclosed => ?_⟩
  · have hread : memRead s.pc s = .done (zext16 c) (s.setKbd rest) := hpc.symm ▸ memRead_keyboard_cons hk
    have hdecode : decode (zext16 c) = .ok (.br false false false (c.setWidth 9)) :=
      encode_never_taken c ▸ decodeInvertsEncode _ rfl
    rw [fetchExecute_ok hread hdecode, hpc]
    rfl
  · rw [fetchExecute_wait (by rw [hpc, memRead_keyboard_empty hk, hopen]; rfl)]
    rfl
  · rw [fetchExecute_fail (by rw [hpc, memRead_keyboard_empty hk, if_pos hclosed]), State.failInFetch, hpc]
    rfl

theorem tableWord_word (w : Nat) : tableWord 16 w = BitVec.ofNat 16 w :=
  BitVec.eq_of_toNat_eq (by simp [tableWord])

theorem isPlain_readyToFetch (s : State) : isPlain s.readyToFetch.pc = true := by
  unfold State.readyToFetch
  split
  · assumption
  · rfl

/-- Settles O11: the word stands at a plain pc, where the step runs it. -/
theorem placedWordIsRunNext : Obligations.PlacedWordIsRunNext := fun s w i hwf hd => by
  have hcell : (s.withFetchWord 16 w).cell s.readyToFetch.pc = BitVec.ofNat 16 w := by
    rw [← tableWord_word]
    exact cell_memWrite_same s.readyToFetch hwf ..
  exact ⟨_, plainFetchRunsTheStoredInstruction (s.withFetchWord 16 w) i rfl rfl (isPlain_readyToFetch s)
    (hcell.symm ▸ hd), rfl, rfl, rfl, ⟨rfl, rfl, rfl, rfl⟩, fun hp => if_pos hp⟩

theorem core_run_two {s t u : State} (h : step s = .next t) (h' : step t = .next u) :
    Sys2Proof.core.run 2 s = .next u := by
  have hs : Sys2Proof.core.step s = .next t := h
  have ht : Sys2Proof.core.step t = .next u := h'
  simp only [Host.Core.run, hs, ht]

/-- Settles O35: the call links and lands on `JMP R7`, which goes to the link. -/
theorem callThenReturnComesBack : Obligations.CallThenReturnComesBack :=
  fun s off hrun hhold hplain hjsr htarget hret => by
    obtain ⟨t, hexec, hlink, hpc, -, -, hcells, -, hrun', -, hhold'⟩ :=
      jsrLinksAndJumps { s with pc := s.pc + 1#16 } off
    have hword : decode (t.cell t.pc) = .ok .ret := by
      rw [hpc, hcells]
      exact hret.symm ▸ rfl
    have hcall := (plainFetchRunsTheStoredInstruction s _ hrun hhold hplain hjsr).trans hexec
    have hreturn := plainFetchRunsTheStoredInstruction t .ret (hrun'.trans hrun) (hhold'.trans hhold)
      (hpc.symm ▸ htarget) hword
    exact ⟨_, core_run_two hcall (hreturn.trans (exec_eq ..)), hlink⟩

end Sys2Proof.Machine
end

section
/-! A wait inside an instruction ends as if the character had been there before (40_fetch_execute.md R74). -/

namespace Sys2Proof.Machine

/-! ### Typing a character, before or after -/

theorem typeChar_eq (s : State) (c : Byte) :
    s.typeChar c = if s.kbdClosed then s else s.setKbd (s.kbd ++ [c]) := rfl

/-- An operation that leaves the keyboard alone may be done before or after a character is typed. -/
theorem typeChar_comm {s : State} (f : State → State) (hf : ∀ q, f (s.setKbd q) = (f s).setKbd q)
    (hkbd : (f s).kbd = s.kbd) (hclosed : (f s).kbdClosed = s.kbdClosed) (c : Byte) :
    (f s).typeChar c = f (s.typeChar c) := by
  rw [typeChar_eq, typeChar_eq, hclosed, hkbd]
  split
  · rfl
  · exact (hf _).symm

section
variable (s : State) (c : Byte)

@[simp] theorem typeChar_run : (s.typeChar c).run = s.run := by rw [typeChar_eq]; split <;> rfl
@[simp] theorem typeChar_hold : (s.typeChar c).hold = s.hold := by rw [typeChar_eq]; split <;> rfl
@[simp] theorem typeChar_pc : (s.typeChar c).pc = s.pc := by rw [typeChar_eq]; split <;> rfl
@[simp] theorem typeChar_regs : (s.typeChar c).regs = s.regs := by rw [typeChar_eq]; split <;> rfl
@[simp] theorem typeChar_mem : (s.typeChar c).mem = s.mem := by rw [typeChar_eq]; split <;> rfl
@[simp] theorem typeChar_outClosed : (s.typeChar c).outClosed = s.outClosed := by rw [typeChar_eq]; split <;> rfl

theorem pcRelative_typeChar {n : Nat} (off : BitVec n) : pcRelative off (s.typeChar c) = pcRelative off s := by
  rw [pcRelative, typeChar_pc, pcRelative]

theorem basePlus_typeChar (base : Reg) (off : BitVec 6) : basePlus base off (s.typeChar c) = basePlus base off s := by
  rw [basePlus, State.reg, typeChar_regs]
  rfl

end

/-! ### What waits goes on -/

/-- Where `f` leaves `s` waiting, a character and the rest of the instruction lead where `f` leads once it is typed. -/
def WaitThenType (f : State → State) (s : State) (c : Byte) : Prop :=
  (f s).hold ≠ none → step ((f s).typeChar c) = .next (f (s.typeChar c))

theorem waitThenType_of_hold {f : State → State} {s : State} {c : Byte} (h : (f s).hold = none) : WaitThenType f s c :=
  fun hne => absurd h hne

/-- The same for `f` after an operation that leaves the keyboard alone. -/
theorem WaitThenType.after (k : State → State) {f g : State → State} {s : State} {c : Byte} (h : WaitThenType f (k s) c)
    (hk : (k s).typeChar c = k (s.typeChar c)) (hg : g s = f (k s))
    (hg' : g (s.typeChar c) = f (k (s.typeChar c))) : WaitThenType g s c := by
  unfold WaitThenType
  rw [hg, hg', ← hk]
  exact h

theorem WaitThenType.congr {f g : State → State} {s : State} {c : Byte} (h : WaitThenType f s c) (hg : g s = f s)
    (hg' : g (s.typeChar c) = f (s.typeChar c)) : WaitThenType g s c := h.after id rfl hg hg'

/-- A TRAP that runs `f` after its link. -/
theorem WaitThenType.linked {f : State → State} {s : State} {c : Byte} (h : WaitThenType f s.trapLinked c) :
    WaitThenType (fun u => f u.trapLinked) s c :=
  h.after State.trapLinked (typeChar_comm State.trapLinked (fun _ => rfl) rfl rfl c) rfl rfl

section
variable (s : State) (hrun : s.run = .running) (hhold : s.hold = none)
include hrun hhold

/-- After the wait the instruction goes on, from the state with the character. -/
theorem step_typed_wait (ir : Word) (p : WaitPoint) (c : Byte) :
    step ((s.waitAt ir p).typeChar c) = .next (resume ir p (s.typeChar c)) := by
  have hrun' : ((s.typeChar c).waitAt ir p).run = .running := (typeChar_run s c).trans hrun
  rw [typeChar_comm (State.waitAt · ir p) (fun _ => rfl) rfl rfl,
    step_running_within hrun' rfl]
  exact congrArg (fun u => Host.Outcome.next (resume ir p u)) (unhold_eq_self ((typeChar_hold s c).trans hhold))

theorem loadInto_typed (ir : Word) (dr : Reg) (a : Word) (c : Byte) : WaitThenType (loadInto ir dr a) s c :=
  memRead_elim (motive := fun t => t.hold ≠ none → step (t.typeChar c) = .next (loadInto ir dr a (s.typeChar c)))
    (fun _ hne => absurd hhold hne) (fun _ _ _ _ => step_typed_wait s hrun hhold ..) (fun _ _ _ hne => absurd hhold hne)

theorem storeIndirect_typed (ir : Word) (sr : Reg) (a : Word) (c : Byte) : WaitThenType (storeIndirect ir sr a) s c :=
  memRead_elim (motive := fun t => t.hold ≠ none → step (t.typeChar c) = .next (storeIndirect ir sr a (s.typeChar c)))
    (fun _ hne => absurd hhold hne) (fun _ _ _ _ => step_typed_wait s hrun hhold ..) (fun _ _ _ hne => absurd hhold hne)

theorem getcRoutine_typed (ir : Word) (c : Byte) : WaitThenType (getcRoutine ir) s c :=
  consoleRead_elim (motive := fun t => t.hold ≠ none → step (t.typeChar c) = .next (getcRoutine ir (s.typeChar c)))
    (fun _ _ _ hne => absurd hhold hne) (fun _ _ _ => step_typed_wait s hrun hhold ..) (fun _ _ hne => absurd hhold hne)

theorem inpRead_typed (ir : Word) (c : Byte) : WaitThenType (inpRead ir) s c :=
  consoleRead_elim (motive := fun t => t.hold ≠ none → step (t.typeChar c) = .next (inpRead ir (s.typeChar c)))
    (fun _ _ _ => consoleWrite_elim (motive := fun t => t.hold ≠ none → _) (fun _ hne => absurd hhold hne)
      (fun _ hne => absurd hhold hne))
    (fun _ _ _ => step_typed_wait s hrun hhold ..) (fun _ _ hne => absurd hhold hne)

/-- The prompt is written before the character is typed or after. -/
theorem inpRoutine_typed (ir : Word) (c : Byte) : WaitThenType (inpRoutine ir) s c := by
  cases ho : s.outClosed with
  | false =>
    have hread := inpRead_typed (s.wrote Config.inPrompt) hrun hhold ir c
    exact hread.after (State.wrote · Config.inPrompt)
      (typeChar_comm (State.wrote · Config.inPrompt) (fun _ => rfl) rfl rfl c)
      (inpRoutine_open ir s ho) (inpRoutine_open ir _ ((typeChar_outClosed s c).trans ho))
  | true =>
    have hclosed := inpRoutine_closed ir s ho
    have hclosed' := inpRoutine_closed ir _ ((typeChar_outClosed s c).trans ho)
    by_cases hp : Config.inPrompt = []
    · rw [if_pos hp] at hclosed hclosed'
      exact (inpRead_typed s hrun hhold ir c).congr hclosed hclosed'
    · rw [if_neg hp] at hclosed
      exact waitThenType_of_hold (hclosed ▸ hhold)

end

/-- A pointer to the keyboard data, with no character left, is in a plain cell: a status read without one has bit 15
clear, and a character has a zero high byte. -/
theorem isPlain_of_pointer {a : Word} {s : State} (hpointer : readValue a s = Config.kbdrAddr)
    (hk : kbdAfterRead a s = []) : isPlain a = true := by
  rw [isPlain_iff]
  constructor
  · rintro rfl
    have hready := kbsrValue_ready Config.kbsrLow (consolePoll s)
    have hempty : s.kbd = [] := hk
    rw [show kbsrValue Config.kbsrLow (consolePoll s) = Config.kbdrAddr from hpointer, consolePoll, hempty] at hready
    exact absurd hready (by decide)
  · rintro rfl
    have hhigh := highByte_zext16 (s.kbd.headD 0x00#8)
    rw [show zext16 (s.kbd.headD 0x00#8) = Config.kbdrAddr from hpointer] at hhigh
    exact absurd hhigh (by decide)

theorem loadIndirect_typed (s : State) (hrun : s.run = .running) (hhold : s.hold = none) (ir : Word) (dr : Reg)
    (a : Word) (c : Byte) : WaitThenType (loadIndirect ir dr a) s c := by
  refine memRead_elim (motive := fun t => t.hold ≠ none →
    step (t.typeChar c) = .next (loadIndirect ir dr a (s.typeChar c))) (fun _ hne => ?_)
    (fun _ _ _ _ => step_typed_wait s hrun hhold ..) (fun _ _ _ hne => absurd hhold hne)
  have hnot : ¬ ReadReady (readValue a s) (afterRead a s) := fun hr => hne (by rw [loadInto_ready hr]; exact hhold)
  obtain ⟨hpointer, hk⟩ := not_readReady_iff.1 hnot
  have hplain := isPlain_of_pointer hpointer hk
  rw [readValue_plain hplain, afterRead_eq_self (isPlain_iff.1 hplain).2] at hne ⊢
  rw [loadIndirect_plain hplain, cell_congr (typeChar_mem s c)]
  exact loadInto_typed s hrun hhold ir dr _ c hne

theorem exec_named (i : Instr) (s : State) : exec i s = exec i.named s := by
  rw [exec_canonical i, exec_canonical i.named, canonical_named]

theorem walks_named (i : Instr) : i.named.walks = i.walks := by
  cases i with
  | jmp base => cases base <;> rfl
  | trap v =>
    refine serviceName_elim (motive := fun v j => j.walks = (Instr.trap v).walks) v rfl rfl rfl rfl rfl rfl fun _ => rfl
  | _ => rfl

theorem Ends.hold_of_not_waits {ir : Word} {s t : State} (h : Ends ir (fun _ => False) s t) : t.hold = s.hold := by
  cases h with
  | finished h => exact h.2.2
  | waits p own => exact own.elim
  | failed run fault hold => exact hold

theorem haltRoutine_hold (ir : Word) (s : State) : (haltRoutine ir s).hold = s.hold := by
  obtain ⟨-, -, h⟩ | ⟨-, -, h⟩ := haltRoutine_ends ir s <;> exact h

/-- Every instruction but a walk, by its row's own name: a load, STI, GETC and IN may wait. -/
theorem execState_typed {i : Instr} (hwf : i.wellFormed = true) (hwalks : i.walks = false) {s : State}
    (hrun : s.run = .running) (hhold : s.hold = none) (c : Byte) : WaitThenType (execState i) s c := by
  cases i with
  | addReg | addImm | andReg | andImm | not | lea | st | str | jsr | jsrr | jmp | ret | rti | reserved =>
    exact waitThenType_of_hold hhold
  | br n z p off => exact waitThenType_of_hold (by simp only [execState]; split <;> exact hhold)
  | ld dr off =>
    exact .congr (loadInto_typed s hrun hhold _ dr _ c) rfl
      (congrArg (loadInto _ dr · _) (pcRelative_typeChar s c off))
  | ldi dr off =>
    exact .congr (loadIndirect_typed s hrun hhold _ dr _ c) rfl
      (congrArg (loadIndirect _ dr · _) (pcRelative_typeChar s c off))
  | ldr dr base off =>
    exact .congr (loadInto_typed s hrun hhold _ dr _ c) rfl
      (congrArg (loadInto _ dr · _) (basePlus_typeChar s c base off))
  | sti sr off =>
    exact .congr (storeIndirect_typed s hrun hhold _ sr _ c) rfl
      (congrArg (storeIndirect _ sr · _) (pcRelative_typeChar s c off))
  | getc => exact (getcRoutine_typed s.trapLinked hrun hhold _ c).linked
  | inp => exact (inpRoutine_typed s.trapLinked hrun hhold _ c).linked
  | out => exact waitThenType_of_hold ((outRoutine_ends ..).hold_of_not_waits.trans hhold)
  | halt => exact waitThenType_of_hold ((haltRoutine_hold ..).trans hhold)
  | trap v =>
    have hv : isServiceVector v = false := by simpa [Instr.wellFormed] using hwf
    refine waitThenType_of_hold ?_
    rw [execState, trapDispatch_other hv]
    exact hhold
  | puts | putsp => cases hwalks

/-- Settles O48: by the row's own name of the instruction, and where that one waits. -/
theorem waitingThenTypingIsTypingThenRunning : Obligations.WaitingThenTypingIsTypingThenRunning :=
  fun i s t c hwalks hrun hhold h ht => by
    rw [exec_named, exec_next_iff] at h
    subst h
    rw [exec_named, exec_eq]
    exact execState_typed (wellFormed_named i) ((walks_named i).trans hwalks) hrun hhold c ht

end Sys2Proof.Machine
end
